-- ==== Sys2Proof/Word.lean ====
section
/-! DEFINITION. The one word of the block: every operand, character code, Framebuffer byte, font row and
response is a byte (spec 20_memory.md R47, R48; 30_encoding.md R62). -/

namespace Sys2Proof

/-- A byte, bit 0 the least significant (00_scope.md R6, R7). A bit index of 8 or more reads 0, which is what
`BitVec.getLsbD` gives. -/
abbrev Byte := BitVec 8

end Sys2Proof
end

