-- ==== Sys2Proof/Syntax.lean ====
section
/-! DEFINITION. The eleven commands of spec/opcode_table.json, one constructor per row (30_encoding.md R63). An operand
is the whole byte the command carries (R62); whether its value is legal is the command's own check, not the syntax's. -/

namespace Sys2Proof

/-- A command of the IBX-FB command set (30_encoding.md R63, operands in the order of R64). -/
inductive Instr
  /-- CLEAR (40_framebuffer_ops.md R80) -/
  | clear
  /-- SETPX x, y (R81) -/
  | setpx (x y : Byte)
  /-- CLRPX x, y (R82) -/
  | clrpx (x y : Byte)
  /-- GETPX x, y (R83) -/
  | getpx (x y : Byte)
  /-- DRAWCHAR x, y, code (41_glyph_blit.md R90) -/
  | drawchar (x y code : Byte)
  /-- DRAWTEXT x, y, text (42_text.md R100); the byte `len` on `CMD` is the length of `text` -/
  | drawtext (x y : Byte) (text : List Byte)
  /-- TGSET col, row, code (R101) -/
  | tgset (col row code : Byte)
  /-- TGLOAD cells (R102) -/
  | tgload (cells : List Byte)
  /-- DRAWGRID (R103) -/
  | drawgrid
  /-- DRAWGAUGE x, y, width, height, percent (43_gauge.md R115) -/
  | drawgauge (x y width height percent : Byte)
  /-- FLUSH (44_frame_write.md R126) -/
  | flush
deriving DecidableEq, Repr

end Sys2Proof
end

