-- ==== Sys2Proof/WellFormed.lean ====
section
/-! DEFINITION. Which terms of `Instr` are commands that bytes on `CMD` can carry. -/

namespace Sys2Proof

/-- The two checks: a text has at most MAX_TEXT = 255 characters (30_encoding.md R65), a grid load has exactly 64 cells
(R64, format GRD). Every other operand is a byte and every byte may be sent (R62). -/
def Instr.WellFormed : Instr → Bool
  | .clear => true
  | .setpx _ _ => true
  | .clrpx _ _ => true
  | .getpx _ _ => true
  | .drawchar _ _ _ => true
  | .drawtext _ _ text => decide (text.length ≤ 255)
  | .tgset _ _ _ => true
  | .tgload cells => decide (cells.length = 64)
  | .drawgrid => true
  | .drawgauge _ _ _ _ _ => true
  | .flush => true

end Sys2Proof
end

