-- ==== Sys2Proof/Decode.lean ====
section
/-! DEFINITION. The command decoder, total on any bytes, the encoder, and the assembler notation
(30_encoding.md R60 to R68). -/

namespace Sys2Proof

/-! The opcode map (R63). -/

def opClear : Byte := 0x01#8
def opSetpx : Byte := 0x02#8
def opClrpx : Byte := 0x03#8
def opGetpx : Byte := 0x04#8
def opDrawchar : Byte := 0x10#8
def opDrawtext : Byte := 0x11#8
def opTgset : Byte := 0x12#8
def opTgload : Byte := 0x13#8
def opDrawgrid : Byte := 0x14#8
def opDrawgauge : Byte := 0x20#8
def opFlush : Byte := 0x30#8

/-- The eleven opcode bytes (R63). -/
def opcodes : List Byte :=
  [opClear, opSetpx, opClrpx, opGetpx, opDrawchar, opDrawtext, opTgset, opTgload, opDrawgrid, opDrawgauge, opFlush]

/-- What the decoder reads at the front of a sequence of bytes. -/
inductive Decoded
  /-- a whole command and the bytes after it -/
  | command (i : Instr) (rest : List Byte)
  /-- a beginning of a command whose last byte is still to come (R60) -/
  | incomplete
  /-- an illegal opcode byte, which has no length (R66), and the bytes after it -/
  | illegal (op : Byte) (rest : List Byte)
deriving DecidableEq, Repr

/-! The operand bytes of each format (R64). -/

/-- Format XY. -/
def decodeXY (k : Byte → Byte → Instr) : List Byte → Decoded
  | x :: y :: rest => .command (k x y) rest
  | _ => .incomplete

/-- Formats XYC and CRC: three operand bytes. -/
def decode3 (k : Byte → Byte → Byte → Instr) : List Byte → Decoded
  | a :: b :: c :: rest => .command (k a b c) rest
  | _ => .incomplete

/-- Format GAU. -/
def decodeGau : List Byte → Decoded
  | x :: y :: width :: height :: percent :: rest => .command (.drawgauge x y width height percent) rest
  | _ => .incomplete

/-- Format TXT: `len` counts the text bytes, and no byte value ends a text (R65). -/
def decodeTxt : List Byte → Decoded
  | x :: y :: len :: rest =>
    if len.toNat ≤ rest.length then
      .command (.drawtext x y (rest.take len.toNat)) (rest.drop len.toNat)
    else .incomplete
  | _ => .incomplete

/-- Format GRD: 64 cells. -/
def decodeGrd (rest : List Byte) : Decoded :=
  if 64 ≤ rest.length then .command (.tgload (rest.take 64)) (rest.drop 64) else .incomplete

/-- The decoder: byte 0 alone tells the command (R63), every other opcode byte is illegal (R66). -/
def decode : List Byte → Decoded
  | [] => .incomplete
  | op :: rest =>
    if op = opClear then .command .clear rest
    else if op = opSetpx then decodeXY .setpx rest
    else if op = opClrpx then decodeXY .clrpx rest
    else if op = opGetpx then decodeXY .getpx rest
    else if op = opDrawchar then decode3 .drawchar rest
    else if op = opDrawtext then decodeTxt rest
    else if op = opTgset then decode3 .tgset rest
    else if op = opTgload then decodeGrd rest
    else if op = opDrawgrid then .command .drawgrid rest
    else if op = opDrawgauge then decodeGau rest
    else if op = opFlush then .command .flush rest
    else .illegal op rest

/-- Byte 0 of a command (R63). -/
def opcodeOf : Instr → Byte
  | .clear => opClear
  | .setpx _ _ => opSetpx
  | .clrpx _ _ => opClrpx
  | .getpx _ _ => opGetpx
  | .drawchar _ _ _ => opDrawchar
  | .drawtext _ _ _ => opDrawtext
  | .tgset _ _ _ => opTgset
  | .tgload _ => opTgload
  | .drawgrid => opDrawgrid
  | .drawgauge _ _ _ _ _ => opDrawgauge
  | .flush => opFlush

/-- The operand bytes of a command in the order of R64; `len` is filled in (R65). -/
def operandsOf : Instr → List Byte
  | .clear => []
  | .setpx x y => [x, y]
  | .clrpx x y => [x, y]
  | .getpx x y => [x, y]
  | .drawchar x y code => [x, y, code]
  | .drawtext x y text => x :: y :: BitVec.ofNat 8 text.length :: text
  | .tgset col row code => [col, row, code]
  | .tgload cells => cells
  | .drawgrid => []
  | .drawgauge x y width height percent => [x, y, width, height, percent]
  | .flush => []

/-- The encoder: the bytes of a command on `CMD`, first byte first (R64). -/
def encode (i : Instr) : List Byte := opcodeOf i :: operandsOf i

/-- The length in bytes that R64 gives the command's format. -/
def commandLength : Instr → Nat
  | .clear => 1
  | .setpx _ _ => 3
  | .clrpx _ _ => 3
  | .getpx _ _ => 3
  | .drawchar _ _ _ => 4
  | .drawtext _ _ text => 4 + text.length
  | .tgset _ _ _ => 4
  | .tgload _ => 65
  | .drawgrid => 1
  | .drawgauge _ _ _ _ _ => 6
  | .flush => 1

/-- The bytes of a sequence of commands: nothing stands between two commands (R60). -/
def encodeAll (is : List Instr) : List Byte := is.flatMap encode

/-! Reading a row of spec/opcode_table.json: bit 0 of `w` is the least significant bit of the first byte. -/

/-- The first 259 bytes (the longest command, R65) of an instruction whose low `nbits` bits are those of `w` and whose
other bits are 0. -/
def wordBytes (nbits w : Nat) : List Byte :=
  (List.range 259).map fun k => BitVec.ofNat 8 (w % 2 ^ nbits / 2 ^ (8 * k))

/-- The command the decoder reads from a table word. -/
def decodeTableWord (nbits w : Nat) : Option Instr :=
  match decode (wordBytes nbits w) with
  | .command i _ => some i
  | .incomplete => none
  | .illegal _ _ => none

/-- Exactly the bytes of the command (or of the illegal opcode) that stands first in a table word. -/
def firstCommandBytes (nbits w : Nat) : List Byte :=
  match decode (wordBytes nbits w) with
  | .command _ rest => (wordBytes nbits w).take (259 - rest.length)
  | .incomplete => wordBytes nbits w
  | .illegal op _ => [op]

/-! Assembler notation (R67). It is a notation only: nothing of the machine reads it. -/

/-- The character codes of the string form of DRAWTEXT: the value of each character (R67). -/
def stringCodes (text : String) : List Byte := text.toList.map fun c => BitVec.ofNat 8 c.toNat

/-- A list operand: items separated by commas in brackets. -/
def asmList (bytes : List Byte) : String :=
  "[" ++ String.intercalate ", " (bytes.map fun b => toString b.toNat) ++ "]"

/-- A line: the mnemonic, then the operands separated by commas. -/
def asmLine (mnemonic : String) (operands : List String) : String :=
  match operands with
  | [] => mnemonic
  | _ :: _ => mnemonic ++ " " ++ String.intercalate ", " operands

/-- One command as a line of assembly; numbers in decimal (R67). There are no pseudo-instructions (R68). -/
def assembly : Instr → String
  | .clear => asmLine "CLEAR" []
  | .setpx x y => asmLine "SETPX" [toString x.toNat, toString y.toNat]
  | .clrpx x y => asmLine "CLRPX" [toString x.toNat, toString y.toNat]
  | .getpx x y => asmLine "GETPX" [toString x.toNat, toString y.toNat]
  | .drawchar x y code => asmLine "DRAWCHAR" [toString x.toNat, toString y.toNat, toString code.toNat]
  | .drawtext x y text => asmLine "DRAWTEXT" [toString x.toNat, toString y.toNat, asmList text]
  | .tgset col row code => asmLine "TGSET" [toString col.toNat, toString row.toNat, toString code.toNat]
  | .tgload cells => asmLine "TGLOAD" [asmList cells]
  | .drawgrid => asmLine "DRAWGRID" []
  | .drawgauge x y width height percent =>
    asmLine "DRAWGAUGE"
      [toString x.toNat, toString y.toNat, toString width.toNat, toString height.toNat, toString percent.toNat]
  | .flush => asmLine "FLUSH" []

end Sys2Proof
end

