-- ==== Sys2Proof/Config.lean ====
section
/-! DEFINITION. What the spec leaves as parameters of the block (00_scope.md R5) and the free values of the model.

The fixed parameters of R5 are written as numerals where a rule's pseudocode writes them: PAGES 8, COLS 128, ROWS 64,
PAGE_H 8, HALVES 2, HALF_COLS 64, GLYPH_W 8, GLYPH_H 16, TG_COLS 16, TG_ROWS 4, OPW 8, CODE_W 8, NGLYPH 256,
MAX_TEXT 255; hence 1024 Framebuffer bytes, 64 Text Grid cells and 4096 Font Table bytes. -/

namespace Sys2Proof

/-- The two values `GLYPH_BIT_BASE` may have (00_scope.md R5; 20_memory.md R46): 8, the repository's test, and 7, the
row format as it is described. -/
inductive GlyphBitBase
  | reference
  | corrected
deriving DecidableEq, Repr, Inhabited

/-- The parameters `FONT` and `GLYPH_BIT_BASE` that the model takes as arguments (00_scope.md R5; 10_state.md R17).
`fontTable` is the Font Table as port `FONTRD` shows it: a 12-bit address out, one byte back (10_state.md R18). -/
structure Params where
  fontTable : BitVec 12 → Byte
  glyphBitBase : GlyphBitBase
deriving Inhabited

/-- The parameters this block was built with. They have no value in the model: 93_implementation_defined.md U2, U4
(notes/assumptions/2.md, 3.md). -/
opaque Config.params : Params

/-- FREE VALUE (93_implementation_defined.md U3; notes/assumptions/1.md): the byte that DRAWGRID draw number `draw`
finds in the Text Grid cell of linear address `t` when nothing has written that cell since reset. -/
opaque Config.freeCell : (draw : Nat) → (t : Nat) → Byte

/-- FREE VALUE (93_implementation_defined.md U12; notes/assumptions/7.md): how many transfers of a command cut short by
reset had crossed an output port before the reset. -/
opaque Config.freeCut : (draw : Nat) → Nat

end Sys2Proof
end

