-- ==== Sys2Proof/Machine/State.lean ====
section
/-! DEFINITION. The state of the block (10_state.md), what it exchanges with its host, its reset value, and the reasons
for which a step of the model stops. -/

namespace Sys2Proof.Machine

open Sys2Proof

/-- One transfer on `OUT` (44_frame_write.md R125): half selector, page, column inside the half, column value. -/
structure Beat where
  h : BitVec 1
  p : BitVec 3
  hc : BitVec 6
  d : Byte
deriving DecidableEq, Repr

/-- What the host does to the block (10_state.md R17, R18): one byte on `CMD`, or the reset event. -/
inductive HostEvent
  /-- a byte presented on `CMD` (30_encoding.md R60) -/
  | byte (b : Byte)
  /-- the reset event between two bytes (70_reset_and_hazards.md R155) -/
  | reset
  /-- a byte on `CMD`, and the reset event before the execution that this byte starts has ended (R155: "in the middle
  of a command's execution, in the middle of a FLUSH"; notes/assumptions/7.md) -/
  | byteThenReset (b : Byte)
deriving DecidableEq, Repr

/-- The state. `fb`, `tg`, `fcause`, `fop` and `latch` are the whole state of the block (10_state.md R10, R12, R13, R19);
`rsp` and `out` are the histories of its output ports (R18); `cmd` and `draw` are the model's own. -/
structure State where
  /-- Framebuffer `FB` by linear byte address (10_state.md R10; 20_memory.md R31); an unlisted byte reads 0x00. -/
  fb : List Host.Cell
  /-- Text Grid `TG` by linear cell address (10_state.md R12; 20_memory.md R43): the cells written since reset. -/
  tg : List Host.Cell
  /-- `FCAUSE` (10_state.md R13) -/
  fcause : BitVec 2
  /-- `FOP` (10_state.md R13) -/
  fop : BitVec 8
  /-- the command assembly latch: the bytes of a command received in part (10_state.md R19) -/
  latch : List Byte
  /-- every byte that has crossed `RSP`, oldest first -/
  rsp : List Byte
  /-- every beat that has crossed `OUT`, oldest first -/
  out : List Beat
  /-- MODEL: what the host has presented and the block has not yet taken, next first (notes/assumptions/5.md) -/
  cmd : List HostEvent
  /-- MODEL: the index of the next free draw (notes/assumptions/1.md, 7.md) -/
  draw : Nat
deriving DecidableEq, Repr

/-- Why a step ends in a fault of the MODEL. The block's own faults (60_exceptions.md R136) are not these: they are
taken, and the next state is halted. -/
inductive Fault
  /-- Raised by `step` alone, when the assembly latch holds bytes that no beginning of a command is (30_encoding.md
  R61), so that no run of the block reaches it. Safe: nothing can be proved of such a step but that it stops
  (notes/assumptions/11.md). -/
  | impossibleLatch
deriving DecidableEq, Repr

/-- Why the model has no meaning for an instruction. -/
inductive Refusal
  /-- Raised by `exec` for an instruction that has no meaning yet; no arm uses it. Safe. -/
  | notModelled (mnemonic : String)
  /-- Raised by DRAWTEXT with more than 255 characters and by TGLOAD with a number of cells other than 64: terms that no
  bytes on `CMD` carry (30_encoding.md R64, R65), so that `step` never runs one. Safe (notes/assumptions/12.md). -/
  | illFormed
deriving DecidableEq, Repr

/-- What a meaning answers. -/
abbrev Result := Host.Outcome State Fault Refusal

/-- The machine right after reset (10_state.md R20): every pixel cleared, no cause, no opcode, an empty latch, nothing
sent; no Text Grid cell written, so that each is unspecified. `cmd` and `draw` are the model's own
(notes/assumptions/5.md, 1.md). -/
def State.reset : State where
  fb := []
  tg := []
  fcause := 0#2
  fop := 0#8
  latch := []
  rsp := []
  out := []
  cmd := []
  draw := 0

end Sys2Proof.Machine
end

