-- ==== Sys2Proof/Machine/Flags.lean ====
section
/-! DEFINITION. The block has no flags, condition codes or predicates (10_state.md R16). Its only status is the pair of
fault registers: their values and the level outputs of port `fault` (R13, R18; 60_exceptions.md R136, R141). -/

namespace Sys2Proof.Machine

open Sys2Proof

/-- `FCAUSE` value `NONE`: running (10_state.md R13). -/
def causeNone : BitVec 2 := 0#2

/-- `FCAUSE` value `ILLEGAL`. -/
def causeIllegal : BitVec 2 := 1#2

/-- `FCAUSE` value `BADARG`. -/
def causeBadarg : BitVec 2 := 2#2

/-- `FCAUSE` value `YRANGE`. -/
def causeYrange : BitVec 2 := 3#2

/-- The signal `halted = (FCAUSE != 0)` (R13, R18). -/
def State.halted (s : State) : Bool := s.fcause != causeNone

/-- The level outputs of port `fault`: `FCAUSE`, `FOP`, `halted` (R18; 60_exceptions.md R141). -/
def State.faultPins (s : State) : BitVec 2 × BitVec 8 × Bool := (s.fcause, s.fop, s.halted)

end Sys2Proof.Machine
end

