-- ==== Sys2Proof/Machine/Operands.lean ====
section
/-! DEFINITION. How operands name pixels, cells, glyph rows and columns (20_memory.md R31 to R38, R43 to R46) and the
sums the range tests are made of (R36, R57). All of it is exact arithmetic on naturals. -/

namespace Sys2Proof.Machine

open Sys2Proof

/-! The Framebuffer's addresses. -/

/-- The column a pixel access touches (20_memory.md R33). -/
def column (x : Nat) : Nat := x % 128

/-- The page of a pixel row (R34). -/
def page (y : Nat) : Nat := y / 8

/-- The bit number of a pixel row inside its page's byte (R34; 10_state.md R11). -/
def bitOffset (y : Nat) : Nat := y % 8

/-- The linear address of `FB[p][c]` (R31). -/
def byteAddr (p c : Nat) : Nat := 128 * p + c

/-- The linear address of the byte that holds pixel `(x, y)` (R31, R33, R34). -/
def pixelByte (x y : Nat) : Nat := byteAddr (page y) (column x)

/-- The byte with bit `b` set alone, `2^b` (R7, R40). -/
def bitMask (b : Nat) : Byte := BitVec.twoPow 8 b

/-- The half of a global column (R37): 0 is the source's "half 1", 1 its "half 2". -/
def half (c : Nat) : Nat := c / 64

/-- The column inside its half (R37). -/
def halfColumn (c : Nat) : Nat := c % 64

/-- The 13-bit pixel address `{y[5:0], x[6:0]}` (R38). -/
def pixelAddress (x y : Nat) : BitVec 13 := BitVec.ofNat 6 y ++ BitVec.ofNat 7 x

/-- The fields of a 13-bit pixel address (R38): page. -/
def addressPage (pa : BitVec 13) : BitVec 3 := pa.extractLsb' 10 3

/-- The fields of a 13-bit pixel address (R38): bit number. -/
def addressBit (pa : BitVec 13) : BitVec 3 := pa.extractLsb' 7 3

/-- The fields of a 13-bit pixel address (R38): half. -/
def addressHalf (pa : BitVec 13) : BitVec 1 := pa.extractLsb' 6 1

/-- The fields of a 13-bit pixel address (R38): column inside the half. -/
def addressColumn (pa : BitVec 13) : BitVec 6 := pa.extractLsb' 0 6

/-! The Text Grid and the Font Table. -/

/-- The linear address of `TG[r][c]` (20_memory.md R43). -/
def cellAddr (r c : Nat) : Nat := 16 * r + c

/-- The Font Table address of a glyph row (R45). -/
def fontAddr (code : Byte) (row : Nat) : BitVec 12 := BitVec.ofNat 12 (16 * code.toNat + row)

/-- `FONT(code, row)` (R45). -/
def fontRow (P : Params) (code : Byte) (row : Nat) : Byte := P.fontTable (fontAddr code row)

/-- The constant `B` of the glyph bit test (00_scope.md R5). -/
def glyphBase (P : Params) : Nat :=
  match P.glyphBitBase with
  | .reference => 8
  | .corrected => 7

/-- `GlyphBit(code, row, col)`: bit `B - col` of the row byte, bit 8 reading 0 (R46). -/
def glyphBit (P : Params) (code : Byte) (row col : Nat) : Bool :=
  (fontRow P code row).getLsbD (glyphBase P - col)

/-! Range tests: the largest pixel row a command would touch, never truncated (R35, R36). -/

/-- A pixel row that exists (R35). -/
def rowInRange (y : Nat) : Bool := decide (y < 64)

/-- The last row of a glyph cell (41_glyph_blit.md R90). -/
def glyphLastRow (y : Nat) : Nat := y + 15

/-- The last row of a gauge (43_gauge.md R115); `height` is at least 1 where it is asked. -/
def gaugeLastRow (y height : Nat) : Nat := y + height - 1

/-- The number of filled columns of a gauge (43_gauge.md R116): the exact product, divided once, truncating. -/
def gaugeFill (percent width : Nat) : Nat := percent * width / 100

end Sys2Proof.Machine
end

