-- ==== Sys2Proof/Machine/Ops.lean ====
section
/-! DEFINITION. The operations every command is built from: the address spaces (20_memory.md R31, R43), the four pixel
primitives (R39 to R42), the procedure `Blit` (41_glyph_blit.md R91), the sequential loop (00_scope.md R8), fault
entry (60_exceptions.md R137) and the reset event, the only way back from a fault (70_reset_and_hazards.md R155). -/

namespace Sys2Proof.Machine

open Sys2Proof

/-! Cells in one canonical form: addresses strictly rising. -/

/-- The byte listed at `a`, if one is. -/
def Memory.read (a : Nat) : List Host.Cell → Option Byte
  | [] => none
  | (k, v) :: rest => if k = a then some v else Memory.read a rest

/-- List `v` at `a`, in its place. -/
def Memory.write (a : Nat) (v : Byte) : List Host.Cell → List Host.Cell
  | [] => [(a, v)]
  | (k, w) :: rest =>
    if a < k then (a, v) :: (k, w) :: rest
    else if a = k then (a, v) :: rest
    else (k, w) :: Memory.write a v rest

/-- List nothing at `a`. -/
def Memory.erase (a : Nat) (m : List Host.Cell) : List Host.Cell := m.filter fun cell => cell.1 != a

/-- Addresses are strictly rising, from `lo` on, and below `size`. -/
def Memory.rising (size : Nat) : Nat → List Host.Cell → Bool
  | _, [] => true
  | lo, (k, _) :: rest => decide (lo ≤ k) && decide (k < size) && Memory.rising size (k + 1) rest

/-- The canonical form of a space of `size` addresses: rising, and no listed byte for which `default` holds, which is
what an unlisted address reads as. -/
def Memory.wf (size : Nat) (default : Byte → Bool) (m : List Host.Cell) : Bool :=
  Memory.rising size 0 m && m.all fun cell => !default cell.2

/-- The Framebuffer's canonical form: 1024 addresses (20_memory.md R30), no 0x00 listed (10_state.md R20). -/
def fbWf (fb : List Host.Cell) : Bool := Memory.wf 1024 (fun v => v == 0#8) fb

/-- The Text Grid's canonical form: 64 addresses (R30); no byte is what an unwritten cell reads as (U3). -/
def tgWf (tg : List Host.Cell) : Bool := Memory.wf 64 (fun _ => false) tg

/-- `MemRead(FB, a, 1)` (20_memory.md R31). An unlisted byte reads 0x00, the reset value (10_state.md R20). -/
def fbByte (fb : List Host.Cell) (a : Nat) : Byte := (Memory.read a fb).getD 0#8

/-- `MemWrite(FB, a, 1, v)` (R31). There is no address of 1024 or more, and such a write touches no byte (R35). -/
def fbWrite (fb : List Host.Cell) (a : Nat) (v : Byte) : List Host.Cell :=
  if a < 1024 then
    if v = 0#8 then Memory.erase a fb else Memory.write a v fb
  else fb

/-- `MemRead(TG, t, 1)` (R43). A cell that nothing has written since reset reads as a FREE VALUE of the draw
(93_implementation_defined.md U3; notes/assumptions/1.md). -/
def tgCell (draw : Nat) (tg : List Host.Cell) (t : Nat) : Byte :=
  (Memory.read t tg).getD (Config.freeCell draw t)

/-- `MemWrite(TG, t, 1, v)` (R43). -/
def tgWrite (tg : List Host.Cell) (t : Nat) (v : Byte) : List Host.Cell :=
  if t < 64 then Memory.write t v tg else tg

/-- `for i = 0 .. n-1: a <- f i a`, ascending, no iteration when `n = 0` (00_scope.md R8). -/
def forUp {α : Type} : (n : Nat) → (f : Nat → α → α) → α → α
  | 0, _, a => a
  | n + 1, f, a => f n (forUp n f a)

/-! The four pixel primitives. A pixel access with `y >= 64` touches no byte (20_memory.md R35); no command makes one. -/

/-- `PixGet(x, y)` (R39), the value 1 as `true`. -/
def pixGet (fb : List Host.Cell) (x y : Nat) : Bool :=
  rowInRange y && (fbByte fb (pixelByte x y)).getLsbD (bitOffset y)

/-- The read-modify-write of the one byte that holds the pixel (R47). -/
def pixModify (fb : List Host.Cell) (x y : Nat) (f : Byte → Byte → Byte) : List Host.Cell :=
  if rowInRange y then fbWrite fb (pixelByte x y) (f (fbByte fb (pixelByte x y)) (bitMask (bitOffset y))) else fb

/-- `PixSet(x, y)`: OR with `2^b` (R40). -/
def pixSet (fb : List Host.Cell) (x y : Nat) : List Host.Cell := pixModify fb x y fun v mask => v ||| mask

/-- `PixClr(x, y)`: AND with `255 - 2^b`, the complement of the mask (R41). -/
def pixClr (fb : List Host.Cell) (x y : Nat) : List Host.Cell := pixModify fb x y fun v mask => v &&& ~~~mask

/-- `PixTgl(x, y)`: XOR with `2^b` (R42). -/
def pixTgl (fb : List Host.Cell) (x y : Nat) : List Host.Cell := pixModify fb x y fun v mask => v ^^^ mask

/-- Set or clear, as the glyph bit says (41_glyph_blit.md R91). -/
def pixPut (fb : List Host.Cell) (x y : Nat) (v : Bool) : List Host.Cell :=
  if v then pixSet fb x y else pixClr fb x y

/-- One row of a glyph, leftmost column first (R91). -/
def blitRow (P : Params) (fb : List Host.Cell) (x y : Nat) (code : Byte) (row : Nat) : List Host.Cell :=
  forUp 8 (fun col fb => pixPut fb (x + col) (y + row) (glyphBit P code row col)) fb

/-- `Blit(x, y, code)`: one glyph into its cell with full overwrite (R91). -/
def blit (P : Params) (fb : List Host.Cell) (x y : Nat) (code : Byte) : List Host.Cell :=
  forUp 16 (fun row fb => blitRow P fb x y code row) fb

/-! Output ports. -/

/-- `emit RSP(b)` (00_scope.md R8; 40_framebuffer_ops.md R83). -/
def emitRsp (b : Byte) (s : State) : State := { s with rsp := s.rsp ++ [b] }

/-- `emit OUT(...)`, beat after beat (44_frame_write.md R125). -/
def emitOut (beats : List Beat) (s : State) : State := { s with out := s.out ++ beats }

/-! Fault entry, and the way back. -/

/-- `raise Fault(cause)` (60_exceptions.md R137): cause and opcode byte, nothing else; the registers are written only
while `FCAUSE` is 0 (10_state.md R13). -/
def raiseFault (cause : BitVec 2) (op : Byte) (s : State) : State :=
  if s.halted then s else { s with fcause := cause, fop := op }

/-- The reset event (70_reset_and_hazards.md R155): every piece of state at the value of 10_state.md R20. What has been
handed over stays handed over, and what the host has yet to present stays its own (notes/assumptions/8.md). -/
def resetEvent (s : State) : State :=
  { State.reset with rsp := s.rsp, out := s.out, cmd := s.cmd, draw := s.draw }

/-- The reset event during an execution that leads from `s` to `t` when it is not cut short (R155): of what it hands
over, some beginning has crossed the port; how much is a FREE VALUE (U12; notes/assumptions/7.md). -/
def cutShort (s t : State) : State :=
  { resetEvent s with
    rsp := t.rsp.take (s.rsp.length + Config.freeCut s.draw)
    out := t.out.take (s.out.length + Config.freeCut s.draw)
    draw := s.draw + 1 }

end Sys2Proof.Machine
end

