-- ==== Sys2Proof/Machine/Flush.lean ====
section
/-! DEFINITION. FLUSH (44_frame_write.md R126) and the four-capability view of its beats (R128). -/

namespace Sys2Proof.Machine

open Sys2Proof

/-- The beat of half `h`, page `p`, column-in-half `hc` (R126). -/
def frameBeat (fb : List Host.Cell) (h p hc : Nat) : Beat where
  h := BitVec.ofNat 1 h
  p := BitVec.ofNat 3 p
  hc := BitVec.ofNat 6 hc
  d := fbByte fb (byteAddr p (64 * h + hc))

/-- The 1024 beats of a frame write (R126): halves, pages and columns in ascending order, the column innermost. -/
def frameBeats (fb : List Host.Cell) : List Beat :=
  (List.range 2).flatMap fun h => (List.range 8).flatMap fun p => (List.range 64).map fun hc => frameBeat fb h p hc

/-- FLUSH (R126). -/
def execFlush (s : State) : Result := .next (emitOut (frameBeats s.fb) s)

/-! The stream as a transmitter with four capabilities would drive it (R128). A view of `State.out`: nothing of the
block reads it, and which strobes a transmitter really issues is outside the block. -/

/-- The four capabilities (R128). -/
inductive Strobe
  | selectHalf (h : BitVec 1)
  | selectPage (p : BitVec 3)
  | selectColumn (hc : BitVec 6)
  | writeByte (d : Byte)
deriving DecidableEq, Repr

/-- The strobes of one beat, `selected` being the half selected before it: a half-select when the half changes, a
page-select when `hc = 0`, a column-select before every beat (notes/assumptions/18.md), the byte-write (R128). -/
def beatStrobes (selected : Option (BitVec 1)) (b : Beat) : List Strobe :=
  (if selected = some b.h then [] else [.selectHalf b.h])
    ++ (if b.hc = 0#6 then [.selectPage b.p] else [])
    ++ [.selectColumn b.hc, .writeByte b.d]

/-- The strobes of a stream of beats. -/
def strobes (selected : Option (BitVec 1)) : List Beat → List Strobe
  | [] => []
  | b :: beats => beatStrobes selected b ++ strobes (some b.h) beats

/-- What a device that keeps the last half, page and column selected would receive: the beats back again (R128). -/
def replay (h : BitVec 1) (p : BitVec 3) (hc : BitVec 6) : List Strobe → List Beat
  | [] => []
  | .selectHalf h' :: rest => replay h' p hc rest
  | .selectPage p' :: rest => replay h p' hc rest
  | .selectColumn hc' :: rest => replay h p hc' rest
  | .writeByte d :: rest => ⟨h, p, hc, d⟩ :: replay h p hc rest

end Sys2Proof.Machine
end

