-- ==== Sys2Proof/Machine/Framebuffer.lean ====
section
/-! DEFINITION. CLEAR, SETPX, CLRPX, GETPX (40_framebuffer_ops.md R80 to R83). -/

namespace Sys2Proof.Machine

open Sys2Proof

/-- CLEAR (R80): every one of the 1024 bytes becomes 0x00, so that none is listed (notes/assumptions/15.md). -/
def execClear (s : State) : Result := .next { s with fb := [] }

/-- SETPX x, y (R81). -/
def execSetpx (x y : Byte) (s : State) : Result :=
  if rowInRange y.toNat then .next { s with fb := pixSet s.fb x.toNat y.toNat }
  else .next (raiseFault causeYrange opSetpx s)

/-- CLRPX x, y (R82). -/
def execClrpx (x y : Byte) (s : State) : Result :=
  if rowInRange y.toNat then .next { s with fb := pixClr s.fb x.toNat y.toNat }
  else .next (raiseFault causeYrange opClrpx s)

/-- The byte GETPX answers with: 0x00 or 0x01 (R83). -/
def pixelAnswer (fb : List Host.Cell) (x y : Nat) : Byte := if pixGet fb x y then 0x01#8 else 0x00#8

/-- GETPX x, y (R83). -/
def execGetpx (x y : Byte) (s : State) : Result :=
  if rowInRange y.toNat then .next (emitRsp (pixelAnswer s.fb x.toNat y.toNat) s)
  else .next (raiseFault causeYrange opGetpx s)

end Sys2Proof.Machine
end

