-- ==== Sys2Proof/Machine/Gauge.lean ====
section
/-! DEFINITION. DRAWGAUGE (43_gauge.md R115, R116). -/

namespace Sys2Proof.Machine

open Sys2Proof

/-- A filled column: every pixel of the bar's height is inverted (R115). -/
def toggleColumn (fb : List Host.Cell) (x y height : Nat) : List Host.Cell :=
  forUp height (fun r fb => pixTgl fb x (y + r)) fb

/-- An unfilled column: top and bottom border pixel, the middle not written (R115). -/
def borderColumn (fb : List Host.Cell) (x y height : Nat) : List Host.Cell :=
  pixSet (pixSet fb x y) x (gaugeLastRow y height)

/-- The right-edge column: every pixel of the bar's height is set (R115). -/
def edgeColumn (fb : List Host.Cell) (x y height : Nat) : List Host.Cell :=
  forUp height (fun r fb => pixSet fb x (y + r)) fb

/-- The bar (R115): columns in ascending order, `fill` of them filled, then the edge at `x + width`. -/
def gaugeBar (fb : List Host.Cell) (x y width height fill : Nat) : List Host.Cell :=
  edgeColumn
    (forUp width (fun i fb => if i < fill then toggleColumn fb (x + i) y height else borderColumn fb (x + i) y height) fb)
    (x + width) y height

/-- DRAWGAUGE x, y, width, height, percent (R115): BADARG is tested before YRANGE (60_exceptions.md R138). -/
def execDrawgauge (x y width height percent : Byte) (s : State) : Result :=
  if height.toNat = 0 ∨ 100 < percent.toNat then .next (raiseFault causeBadarg opDrawgauge s)
  else if rowInRange (gaugeLastRow y.toNat height.toNat) then
    .next { s with
      fb := gaugeBar s.fb x.toNat y.toNat width.toNat height.toNat (gaugeFill percent.toNat width.toNat) }
  else .next (raiseFault causeYrange opDrawgauge s)

end Sys2Proof.Machine
end

