-- ==== Sys2Proof/Machine/Glyph.lean ====
section
/-! DEFINITION. DRAWCHAR (41_glyph_blit.md R90). -/

namespace Sys2Proof.Machine

open Sys2Proof

/-- DRAWCHAR with the parameters as an argument (R90): the range test on the exact sum, then `Blit`. -/
def drawcharWith (P : Params) (x y code : Byte) (s : State) : Result :=
  if rowInRange (glyphLastRow y.toNat) then .next { s with fb := blit P s.fb x.toNat y.toNat code }
  else .next (raiseFault causeYrange opDrawchar s)

/-- DRAWCHAR x, y, code (R90). -/
def execDrawchar (x y code : Byte) (s : State) : Result := drawcharWith Config.params x y code s

end Sys2Proof.Machine
end

