-- ==== Sys2Proof/Machine/Text.lean ====
section
/-! DEFINITION. DRAWTEXT, TGSET, TGLOAD, DRAWGRID (42_text.md R100 to R103). -/

namespace Sys2Proof.Machine

open Sys2Proof

/-- A run of characters, first character first, the cursor 8 columns further for each (R100). -/
def drawRun (P : Params) (y : Nat) : (x : Nat) → (text : List Byte) → List Host.Cell → List Host.Cell
  | _, [], fb => fb
  | x, code :: text, fb => drawRun P y (x + 8) text (blit P fb x y code)

/-- DRAWTEXT with the parameters as an argument (R100): one range test before any pixel, none for an empty text. -/
def drawtextWith (P : Params) (x y : Byte) (text : List Byte) (s : State) : Result :=
  if text.length ≤ 255 then
    if text.isEmpty || rowInRange (glyphLastRow y.toNat) then
      .next { s with fb := drawRun P y.toNat x.toNat text s.fb }
    else .next (raiseFault causeYrange opDrawtext s)
  else .refused .illFormed

/-- DRAWTEXT x, y, text (R100). -/
def execDrawtext (x y : Byte) (text : List Byte) (s : State) : Result := drawtextWith Config.params x y text s

/-- TGSET col, row, code (R101). -/
def execTgset (col row code : Byte) (s : State) : Result :=
  if col.toNat < 16 ∧ row.toNat < 4 then .next { s with tg := tgWrite s.tg (cellAddr row.toNat col.toNat) code }
  else .next (raiseFault causeBadarg opTgset s)

/-- The loop of TGLOAD (R102): the cells of the command go to consecutive linear addresses `16r + c`, from `t` on. -/
def loadCells : (t : Nat) → (cells : List Byte) → List Host.Cell → List Host.Cell
  | _, [], tg => tg
  | t, code :: cells, tg => loadCells (t + 1) cells (tgWrite tg t code)

/-- TGLOAD cells (R102). -/
def execTgload (cells : List Byte) (s : State) : Result :=
  if cells.length = 64 then .next { s with tg := loadCells (cellAddr 0 0) cells s.tg } else .refused .illFormed

/-- The loops of DRAWGRID over the cell codes `codes t` (R103). -/
def renderGrid (P : Params) (codes : Nat → Byte) (fb : List Host.Cell) : List Host.Cell :=
  forUp 4 (fun r fb => forUp 16 (fun c fb => blit P fb (8 * c) (16 * r) (codes (cellAddr r c))) fb) fb

/-- DRAWGRID with the parameters as an argument (R103). A cell not written since reset is one free byte for the whole
command; the next DRAWGRID has other draws (U3; notes/assumptions/1.md). -/
def drawgridWith (P : Params) (s : State) : Result :=
  .next { s with fb := renderGrid P (tgCell s.draw s.tg) s.fb, draw := s.draw + 1 }

/-- DRAWGRID (R103). -/
def execDrawgrid (s : State) : Result := drawgridWith Config.params s

end Sys2Proof.Machine
end

