-- ==== Sys2Proof/Machine/Dispatch.lean ====
section
/-! DEFINITION. The meaning of each command, one arm per constructor of `Instr`. -/

namespace Sys2Proof.Machine

open Sys2Proof

def exec (i : Instr) (s : State) : Host.Outcome State Fault Refusal :=
  match i with
  | .clear => Sys2Proof.Machine.execClear s
  | .setpx x y => Sys2Proof.Machine.execSetpx x y s
  | .clrpx x y => Sys2Proof.Machine.execClrpx x y s
  | .getpx x y => Sys2Proof.Machine.execGetpx x y s
  | .drawchar x y code => Sys2Proof.Machine.execDrawchar x y code s
  | .drawtext x y text => Sys2Proof.Machine.execDrawtext x y text s
  | .tgset col row code => Sys2Proof.Machine.execTgset col row code s
  | .tgload cells => Sys2Proof.Machine.execTgload cells s
  | .drawgrid => Sys2Proof.Machine.execDrawgrid s
  | .drawgauge x y width height percent => Sys2Proof.Machine.execDrawgauge x y width height percent s
  | .flush => Sys2Proof.Machine.execFlush s

end Sys2Proof.Machine
end

