-- ==== Sys2Proof/Machine/Fetch.lean ====
section
/-! DEFINITION. How a byte taken on `CMD` meets the assembly latch (10_state.md R19; 30_encoding.md R60, R61, R66). -/

namespace Sys2Proof.Machine

open Sys2Proof

/-- What taking a byte leads to. -/
inductive Accepted
  /-- the command is still incomplete; the latch holds its bytes so far -/
  | waiting (latch : List Byte)
  /-- the byte was taken as an opcode byte and is none -/
  | illegal (op : Byte)
  /-- the byte was the last of a command -/
  | complete (i : Instr)
  /-- the latch held bytes that are no beginning of a command -/
  | impossible
deriving DecidableEq, Repr

/-- Take one byte (R60, R61): a command is complete at its last byte; an illegal opcode byte faults as soon as it is
taken. -/
def acceptByte (latch : List Byte) (b : Byte) : Accepted :=
  match decode (latch ++ [b]) with
  | .incomplete => .waiting (latch ++ [b])
  | .command i [] => .complete i
  | .illegal op [] => .illegal op
  | .command _ (_ :: _) => .impossible
  | .illegal _ (_ :: _) => .impossible

/-- Put a command where the next step takes its last byte: all its bytes but the last in the latch, the last one next
on `CMD`, in a running block (notes/assumptions/5.md). -/
def State.withCommandBytes (s : State) (bytes : List Byte) : State :=
  { s with
    latch := bytes.dropLast
    cmd := (bytes.getLast?.toList.map HostEvent.byte) ++ s.cmd
    fcause := causeNone
    fop := 0#8 }

/-- The host presents bytes after all that it has presented so far (10_state.md R18). -/
def State.present (s : State) (bytes : List Byte) : State := { s with cmd := s.cmd ++ bytes.map HostEvent.byte }

end Sys2Proof.Machine
end

