-- ==== Sys2Proof/Machine/Step.lean ====
section
/-! DEFINITION. One step: the block takes the next thing the host has presented (30_encoding.md R60, R61;
60_exceptions.md R139; 70_reset_and_hazards.md R155). -/

namespace Sys2Proof.Machine

open Sys2Proof

/-- The block takes byte `b`, which is no longer in `s.cmd`. A halted block discards it (R139). -/
def takeByte (b : Byte) (s : State) : Host.Outcome State Fault Refusal :=
  if s.halted then .next s
  else
    match acceptByte s.latch b with
    | .waiting latch => .next { s with latch := latch }
    | .illegal op => .next (raiseFault causeIllegal op { s with latch := [] })
    | .complete i => exec i { s with latch := [] }
    | .impossible => .fault .impossibleLatch

/-- One step. With nothing presented the block waits and keeps all its state (R60; 60_exceptions.md R150;
notes/assumptions/6.md). -/
def step (s : State) : Host.Outcome State Fault Refusal :=
  match s.cmd with
  | [] => .next s
  | .byte b :: rest => takeByte b { s with cmd := rest }
  | .reset :: rest => .next (resetEvent { s with cmd := rest })
  | .byteThenReset b :: rest =>
    match takeByte b { s with cmd := rest } with
    | .next t => .next (cutShort { s with cmd := rest } t)
    | .fault f => .fault f
    | .refused r => .refused r

/-- `s` with the command of a table word where the next step runs it (notes/assumptions/5.md). -/
def State.withFetchWord (s : State) (nbits w : Nat) : State := s.withCommandBytes (firstCommandBytes nbits w)

end Sys2Proof.Machine
end

