-- ==== Sys2Proof/Safety.lean ====
section
/-! DEFINITION. What holds of the block in every run, and what a run that drew something is, in the terms that claims
use (10_state.md R19 to R21; 60_exceptions.md R139). -/

namespace Sys2Proof.Machine

open Sys2Proof

/-- The block executes commands: `FCAUSE` is 0 (10_state.md R13). -/
abbrev State.Running (s : State) : Prop := s.fcause = causeNone

/-- The invariant of the block (10_state.md R19, R21; 30_encoding.md R61). -/
structure State.Inv (s : State) : Prop where
  /-- `FB` is in its canonical form: 1024 bytes (R21 a) -/
  fbCanonical : fbWf s.fb = true
  /-- `TG` is in its canonical form: 64 cells (R21 a) -/
  tgCanonical : tgWf s.tg = true
  /-- `FCAUSE = 0` implies `FOP = 0` (R21 b) -/
  runningNoOpcode : s.fcause = causeNone → s.fop = 0#8
  /-- the latch holds a beginning of a command that is not yet complete (R19, R61) -/
  latchIncomplete : decode s.latch = .incomplete
  /-- a halted block holds no byte of a command: it decodes nothing (60_exceptions.md R139) -/
  haltedLatchEmpty : s.fcause ≠ causeNone → s.latch = []

/-- Every piece of the block's own state stands at its reset value (10_state.md R20): every Framebuffer byte 0x00, every
Text Grid cell unspecified (its reads are free draws), no cause, no opcode, an empty latch. -/
structure State.BlockReset (s : State) : Prop where
  fbClear : ∀ a, fbByte s.fb a = 0#8
  tgUnspecified : ∀ draw c, tgCell draw s.tg c = Config.freeCell draw c
  noCause : s.fcause = 0#2
  noOpcode : s.fop = 0#8
  latchEmpty : s.latch = []

/-- Command `i` takes a fault: `cause` and the opcode byte `op` are recorded and nothing else changes (60_exceptions.md
R137); in a block that is already halted not even those (10_state.md R13). -/
def TakesFault (i : Instr) (s : State) (cause : BitVec 2) (op : Byte) : Prop :=
  (s.Running → exec i s = .next { s with fcause := cause, fop := op }) ∧ (¬ s.Running → exec i s = .next s)

/-- The fault table of 60_exceptions.md R136 with its priority (R138): a function of the command's own bytes. -/
def faultOf : Instr → BitVec 2
  | .clear => 0
  | .setpx _ y => if 64 ≤ y.toNat then 3 else 0
  | .clrpx _ y => if 64 ≤ y.toNat then 3 else 0
  | .getpx _ y => if 64 ≤ y.toNat then 3 else 0
  | .drawchar _ y _ => if 48 < y.toNat then 3 else 0
  | .drawtext _ y text => if 0 < text.length ∧ 48 < y.toNat then 3 else 0
  | .tgset col row _ => if 15 < col.toNat ∨ 3 < row.toNat then 2 else 0
  | .tgload _ => 0
  | .drawgrid => 0
  | .drawgauge _ y _ height percent =>
    if height.toNat = 0 ∨ 100 < percent.toNat then 2 else if 64 < y.toNat + height.toNat then 3 else 0
  | .flush => 0

/-- The commands that write the Framebuffer (10_state.md R10). -/
def drawsPixels : Instr → Bool
  | .clear | .setpx _ _ | .clrpx _ _ | .drawchar _ _ _ | .drawtext _ _ _ | .drawgrid | .drawgauge _ _ _ _ _ => true
  | .getpx _ _ | .tgset _ _ _ | .tgload _ | .flush => false

/-- The commands that write the Text Grid (10_state.md R12). -/
def fillsGrid : Instr → Bool
  | .tgset _ _ _ | .tgload _ => true
  | .clear | .setpx _ _ | .clrpx _ _ | .getpx _ _ | .drawchar _ _ _ | .drawtext _ _ _ | .drawgrid
  | .drawgauge _ _ _ _ _ | .flush => false

/-- The machine at command granularity (70_reset_and_hazards.md R170): commands one after the other, none executed by a
halted block (60_exceptions.md R139). -/
def runCommands : List Instr → State → Result
  | [], s => .next s
  | i :: is, s =>
    if s.halted then .next s
    else
      match exec i s with
      | .next t => runCommands is t
      | .fault f => .fault f
      | .refused r => .refused r

/-- After `k` steps from `s` the block is running: a run with a fault does not count as one that drew something
(60_exceptions.md R139). -/
def SafeRun (k : Nat) (s : State) : Prop := ∃ t : State, Sys2Proof.core.run k s = .next t ∧ t.Running

end Sys2Proof.Machine
end

