-- ==== Sys2Proof/Certificates/Slice0/Obligations.lean ====
section
/-! DEFINITION. The statements about the block, each a proposition, none proved here. Free values and parameters
(`Config.params`, `Config.freeCell`, `Config.freeCut`) are opaque, so that a statement holds whatever they are. -/

open Sys2Proof Sys2Proof.Machine

/-! ## Encoding -/

/-- 30_encoding.md R64: what the encoder writes, the decoder reads back, whatever follows it. -/
def Obligations.DecodeOfEncodeGivesTheCommandBack : Prop :=
  ∀ (i : Instr) (rest : List Byte), i.WellFormed = true → decode (encode i ++ rest) = .command i rest

/-- 30_encoding.md R64: whatever the decoder reads as a command is a well-formed command's encoding, byte for byte. -/
def Obligations.DecodedBytesAreAnEncoding : Prop :=
  ∀ (bs rest : List Byte) (i : Instr), decode bs = .command i rest → i.WellFormed = true ∧ bs = encode i ++ rest

/-- 30_encoding.md R61: no proper beginning of a command is a command or an illegal one. -/
def Obligations.BeginningOfACommandIsIncomplete : Prop :=
  ∀ (i : Instr) (n : Nat), i.WellFormed = true → n < (encode i).length → decode ((encode i).take n) = .incomplete

/-- 30_encoding.md, section 8: words written out from the formats of R64 decode to what they stand for. -/
def Obligations.WrittenOutWordsDecode : Prop :=
  decode [0x02#8, 0x05#8, 0x0A#8] = .command (.setpx 5#8 10#8) [] ∧
  decode [0x10#8, 0x08#8, 0x10#8, 0x41#8] = .command (.drawchar 8#8 16#8 0x41#8) [] ∧
  decode [0x11#8, 0x78#8, 0x00#8, 0x02#8, 0x41#8, 0x42#8] = .command (.drawtext 120#8 0#8 [0x41#8, 0x42#8]) [] ∧
  decode [0x12#8, 0x0F#8, 0x03#8, 0x30#8] = .command (.tgset 15#8 3#8 0x30#8) [] ∧
  decode [0x20#8, 0x0A#8, 0x30#8, 0x64#8, 0x08#8, 0x32#8] = .command (.drawgauge 10#8 48#8 100#8 8#8 50#8) [] ∧
  decode [0x30#8] = .command .flush []

/-- 30_encoding.md R66: the illegal opcode bytes are those five ranges, 245 values, and the block faults ILLEGAL as soon
as it takes one. -/
def Obligations.IllegalOpcodeFaultsWhenTaken : Prop :=
  (∀ (op : Byte) (rest : List Byte), decode (op :: rest) = .illegal op rest ↔
    (op.toNat = 0 ∨ (5 ≤ op.toNat ∧ op.toNat ≤ 0x0F) ∨ (0x15 ≤ op.toNat ∧ op.toNat ≤ 0x1F) ∨
      (0x21 ≤ op.toNat ∧ op.toNat ≤ 0x2F) ∨ 0x31 ≤ op.toNat)) ∧
  ((List.range 256).filter fun n => decide (BitVec.ofNat 8 n ∉ opcodes)).length = 245 ∧
  ∀ (s : State) (op : Byte) (rest : List HostEvent), s.Running → s.latch = [] → s.cmd = .byte op :: rest →
    op ∉ opcodes → step s = .next { s with cmd := rest, fcause := 1#2, fop := op }

/-! ## Addresses, pixels and glyph bits -/

/-- 20_memory.md R38: the fields of the 13-bit pixel address, the byte address and the bit mask. -/
def Obligations.PixelAddressFields : Prop :=
  ∀ x y : Nat, y < 64 →
    (addressPage (pixelAddress x y)).toNat = y / 8 ∧
    (addressBit (pixelAddress x y)).toNat = y % 8 ∧
    (addressHalf (pixelAddress x y)).toNat = half (column x) ∧ half (column x) = (x / 64) % 2 ∧
    (addressColumn (pixelAddress x y)).toNat = halfColumn (column x) ∧ halfColumn (column x) = x % 64 ∧
    (pixelAddress x y).toNat = 128 * y + x % 128 ∧
    (addressPage (pixelAddress x y) ++ addressHalf (pixelAddress x y) ++ addressColumn (pixelAddress x y)).toNat =
      pixelByte x y ∧
    pixelByte x y = 128 * (y / 8) + x % 128 ∧ pixelByte x y < 1024 ∧
    (bitMask (bitOffset y)).toNat = 2 ^ (y % 8)

/-- 20_memory.md R39 to R42 and the laws that follow them: the four pixel primitives, on the byte that holds the pixel
and on every other. -/
def Obligations.PixelPrimitives : Prop :=
  ∀ (fb : List Host.Cell) (x y : Nat), y < 64 →
    pixGet fb x y = (fbByte fb (pixelByte x y)).getLsbD (y % 8) ∧
    fbByte (pixSet fb x y) (pixelByte x y) = fbByte fb (pixelByte x y) ||| BitVec.twoPow 8 (y % 8) ∧
    fbByte (pixClr fb x y) (pixelByte x y) = fbByte fb (pixelByte x y) &&& (255#8 - BitVec.twoPow 8 (y % 8)) ∧
    fbByte (pixTgl fb x y) (pixelByte x y) = fbByte fb (pixelByte x y) ^^^ BitVec.twoPow 8 (y % 8) ∧
    (∀ a, a ≠ pixelByte x y →
      fbByte (pixSet fb x y) a = fbByte fb a ∧ fbByte (pixClr fb x y) a = fbByte fb a ∧
      fbByte (pixTgl fb x y) a = fbByte fb a) ∧
    pixGet (pixSet fb x y) x y = true ∧ pixGet (pixClr fb x y) x y = false ∧
    pixGet (pixTgl fb x y) x y = !pixGet fb x y ∧
    (∀ x' y', (x' % 128 ≠ x % 128 ∨ y' ≠ y) →
      pixGet (pixSet fb x y) x' y' = pixGet fb x' y' ∧ pixGet (pixClr fb x y) x' y' = pixGet fb x' y' ∧
      pixGet (pixTgl fb x y) x' y' = pixGet fb x' y') ∧
    (∀ a, fbByte (pixTgl (pixTgl fb x y) x y) a = fbByte fb a) ∧
    (∀ k, pixGet fb (x + 128 * k) y = pixGet fb x y ∧ pixSet fb (x + 128 * k) y = pixSet fb x y ∧
      pixClr fb (x + 128 * k) y = pixClr fb x y ∧ pixTgl fb (x + 128 * k) y = pixTgl fb x y)

/-- 20_memory.md R33: an `x` and the `x` 128 further name the same column for every command that takes one. -/
def Obligations.ColumnsWrapForEveryCommand : Prop :=
  ∀ (x y code width height percent : Byte) (text : List Byte) (s : State),
    exec (.setpx (x + 128#8) y) s = exec (.setpx x y) s ∧
    exec (.clrpx (x + 128#8) y) s = exec (.clrpx x y) s ∧
    exec (.getpx (x + 128#8) y) s = exec (.getpx x y) s ∧
    exec (.drawchar (x + 128#8) y code) s = exec (.drawchar x y code) s ∧
    exec (.drawtext (x + 128#8) y text) s = exec (.drawtext x y text) s ∧
    exec (.drawgauge (x + 128#8) y width height percent) s = exec (.drawgauge x y width height percent) s

/-- 20_memory.md R45, R46: the address of a glyph row, and the glyph bit test for both values of `GLYPH_BIT_BASE`. -/
def Obligations.GlyphBitTest : Prop :=
  ∀ (P : Params) (code : Byte) (row col : Nat), row < 16 → col < 8 →
    (fontAddr code row).toNat = 16 * code.toNat + row ∧
    ((fontAddr code row).extractLsb' 4 8) = code ∧ ((fontAddr code row).extractLsb' 0 4).toNat = row ∧
    fontRow P code row = P.fontTable (fontAddr code row) ∧
    (P.glyphBitBase = .reference → col = 0 → glyphBit P code row col = false) ∧
    (P.glyphBitBase = .reference → 0 < col → glyphBit P code row col = (fontRow P code row).getLsbD (8 - col)) ∧
    (P.glyphBitBase = .corrected → glyphBit P code row col = (fontRow P code row).getLsbD (7 - col))

/-! ## The commands, each with its encoding, its effect, its frame and its faults -/

/-- 40_framebuffer_ops.md R80. -/
def Obligations.ClearClearsEveryPixel : Prop :=
  encode .clear = [0x01#8] ∧
  ∀ s : State, ∃ t, exec .clear s = .next t ∧ t = { s with fb := t.fb } ∧
    (∀ a, fbByte t.fb a = 0#8) ∧ (∀ x y, pixGet t.fb x y = false)

/-- 40_framebuffer_ops.md R81. -/
def Obligations.SetpxSetsOnePixel : Prop :=
  ∀ (x y : Byte) (s : State),
    encode (.setpx x y) = [0x02#8, x, y] ∧
    (y.toNat < 64 → ∃ t, exec (.setpx x y) s = .next t ∧ t = { s with fb := t.fb } ∧
      fbByte t.fb (pixelByte x.toNat y.toNat) =
        fbByte s.fb (pixelByte x.toNat y.toNat) ||| BitVec.twoPow 8 (y.toNat % 8) ∧
      ∀ a, a ≠ pixelByte x.toNat y.toNat → fbByte t.fb a = fbByte s.fb a) ∧
    (64 ≤ y.toNat → TakesFault (.setpx x y) s 3#2 0x02#8)

/-- 40_framebuffer_ops.md R82. -/
def Obligations.ClrpxClearsOnePixel : Prop :=
  ∀ (x y : Byte) (s : State),
    encode (.clrpx x y) = [0x03#8, x, y] ∧
    (y.toNat < 64 → ∃ t, exec (.clrpx x y) s = .next t ∧ t = { s with fb := t.fb } ∧
      fbByte t.fb (pixelByte x.toNat y.toNat) =
        fbByte s.fb (pixelByte x.toNat y.toNat) &&& (255#8 - BitVec.twoPow 8 (y.toNat % 8)) ∧
      ∀ a, a ≠ pixelByte x.toNat y.toNat → fbByte t.fb a = fbByte s.fb a) ∧
    (64 ≤ y.toNat → TakesFault (.clrpx x y) s 3#2 0x03#8)

/-- 40_framebuffer_ops.md R83. -/
def Obligations.GetpxAnswersOneByte : Prop :=
  ∀ (x y : Byte) (s : State),
    encode (.getpx x y) = [0x04#8, x, y] ∧
    (y.toNat < 64 → exec (.getpx x y) s = .next { s with
      rsp := s.rsp ++ [if (fbByte s.fb (pixelByte x.toNat y.toNat)).getLsbD (y.toNat % 8) then 0x01#8 else 0x00#8] }) ∧
    (64 ≤ y.toNat → TakesFault (.getpx x y) s 3#2 0x04#8)

/-- 41_glyph_blit.md R90, R91: the cell shows the glyph whatever it held, nothing outside it changes. -/
def Obligations.DrawcharBlitsOneGlyph : Prop :=
  ∀ (x y code : Byte) (s : State),
    encode (.drawchar x y code) = [0x10#8, x, y, code] ∧
    (y.toNat ≤ 48 → ∃ t, exec (.drawchar x y code) s = .next t ∧ t = { s with fb := t.fb } ∧
      (∀ row col, row < 16 → col < 8 →
        pixGet t.fb (x.toNat + col) (y.toNat + row) = glyphBit Config.params code row col) ∧
      (∀ x' y', (∀ row col, row < 16 → col < 8 → ¬ ((x.toNat + col) % 128 = x' % 128 ∧ y.toNat + row = y')) →
        pixGet t.fb x' y' = pixGet s.fb x' y') ∧
      (∀ a, (∀ row col, row < 16 → col < 8 → pixelByte (x.toNat + col) (y.toNat + row) ≠ a) →
        fbByte t.fb a = fbByte s.fb a)) ∧
    (48 < y.toNat → TakesFault (.drawchar x y code) s 3#2 0x10#8)

/-- 42_text.md R100: in each cell the last character that lands there; nothing outside the cells changes. -/
def Obligations.DrawtextBlitsTheRun : Prop :=
  ∀ (x y : Byte) (text : List Byte) (s : State), text.length ≤ 255 →
    encode (.drawtext x y text) = 0x11#8 :: x :: y :: BitVec.ofNat 8 text.length :: text ∧
    (text = [] ∨ y.toNat ≤ 48 → ∃ t, exec (.drawtext x y text) s = .next t ∧ t = { s with fb := t.fb } ∧
      (text = [] → t = s) ∧
      (∀ (k : Nat) (hk : k < text.length), (∀ k', k < k' → k' < text.length → (k' - k) % 16 ≠ 0) →
        ∀ row col, row < 16 → col < 8 →
          pixGet t.fb (x.toNat + 8 * k + col) (y.toNat + row) = glyphBit Config.params text[k] row col) ∧
      (∀ x' y', (∀ k row col, k < text.length → row < 16 → col < 8 →
          ¬ ((x.toNat + 8 * k + col) % 128 = x' % 128 ∧ y.toNat + row = y')) →
        pixGet t.fb x' y' = pixGet s.fb x' y') ∧
      (∀ a, (∀ k row col, k < text.length → row < 16 → col < 8 →
          pixelByte (x.toNat + 8 * k + col) (y.toNat + row) ≠ a) →
        fbByte t.fb a = fbByte s.fb a)) ∧
    (text ≠ [] → 48 < y.toNat → TakesFault (.drawtext x y text) s 3#2 0x11#8)

/-- 42_text.md R101. -/
def Obligations.TgsetWritesOneCell : Prop :=
  ∀ (col row code : Byte) (s : State),
    encode (.tgset col row code) = [0x12#8, col, row, code] ∧
    (col.toNat ≤ 15 ∧ row.toNat ≤ 3 → ∃ t, exec (.tgset col row code) s = .next t ∧ t = { s with tg := t.tg } ∧
      Memory.read (16 * row.toNat + col.toNat) t.tg = some code ∧
      (∀ draw, tgCell draw t.tg (16 * row.toNat + col.toNat) = code) ∧
      ∀ a, a ≠ 16 * row.toNat + col.toNat → Memory.read a t.tg = Memory.read a s.tg) ∧
    (15 < col.toNat ∨ 3 < row.toNat → TakesFault (.tgset col row code) s 2#2 0x12#8)

/-- 42_text.md R102. -/
def Obligations.TgloadWritesEveryCell : Prop :=
  ∀ (cells : List Byte) (s : State) (hlen : cells.length = 64),
    encode (.tgload cells) = 0x13#8 :: cells ∧
    ∃ t, exec (.tgload cells) s = .next t ∧ t = { s with tg := t.tg } ∧
      (∀ (c : Nat) (hc : c < 64), Memory.read c t.tg = some (cells[c]'(by omega)) ∧
        ∀ draw, tgCell draw t.tg c = cells[c]'(by omega)) ∧
      ∀ a, 64 ≤ a → Memory.read a t.tg = Memory.read a s.tg

/-- 42_text.md R103: every pixel is the glyph bit of its cell, and a second DRAWGRID shows the same. A cell not written
since reset is a free byte of the draw, another at the second DRAWGRID (93_implementation_defined.md U3). -/
def Obligations.DrawgridBlitsTheGrid : Prop :=
  encode .drawgrid = [0x14#8] ∧
  ∀ s : State, ∃ t, exec .drawgrid s = .next t ∧ t = { s with fb := t.fb, draw := t.draw } ∧
    (∀ r c row col, r < 4 → c < 16 → row < 16 → col < 8 →
      pixGet t.fb (8 * c + col) (16 * r + row) =
        glyphBit Config.params (tgCell s.draw s.tg (16 * r + c)) row col) ∧
    (∀ a v, Memory.read a s.tg = some v → tgCell s.draw s.tg a = v) ∧
    (∀ a, 1024 ≤ a → fbByte t.fb a = fbByte s.fb a) ∧
    ∃ u, exec .drawgrid t = .next u ∧
      ∀ r c row col, r < 4 → c < 16 → row < 16 → col < 8 → (∃ v, Memory.read (16 * r + c) s.tg = some v) →
        pixGet u.fb (8 * c + col) (16 * r + row) = pixGet t.fb (8 * c + col) (16 * r + row)

/-- 43_gauge.md R115, for every width: the visits of the columns `i` that fall on a pixel's column, in ascending order,
then the edge; nothing outside the bar's rows and columns changes. -/
def Obligations.DrawgaugeDrawsTheBar : Prop :=
  ∀ (x y width height percent : Byte) (s : State),
    encode (.drawgauge x y width height percent) = [0x20#8, x, y, width, height, percent] ∧
    (0 < height.toNat → percent.toNat ≤ 100 → y.toNat + height.toNat ≤ 64 →
      ∃ t, exec (.drawgauge x y width height percent) s = .next t ∧ t = { s with fb := t.fb } ∧
        (∀ x' y', pixGet t.fb x' y' =
          if y.toNat ≤ y' ∧ y' < y.toNat + height.toNat then
            if (x.toNat + width.toNat) % 128 = x' % 128 then true
            else
              (List.range width.toNat).foldl
                (fun v i =>
                  if (x.toNat + i) % 128 = x' % 128 then
                    if i < percent.toNat * width.toNat / 100 then !v
                    else if y' = y.toNat ∨ y' = y.toNat + height.toNat - 1 then true else v
                  else v)
                (pixGet s.fb x' y')
          else pixGet s.fb x' y') ∧
        (∀ a, (∀ i r, i ≤ width.toNat → r < height.toNat → pixelByte (x.toNat + i) (y.toNat + r) ≠ a) →
          fbByte t.fb a = fbByte s.fb a)) ∧
    (height.toNat = 0 ∨ 100 < percent.toNat → TakesFault (.drawgauge x y width height percent) s 2#2 0x20#8) ∧
    (0 < height.toNat → percent.toNat ≤ 100 → 64 < y.toNat + height.toNat →
      TakesFault (.drawgauge x y width height percent) s 3#2 0x20#8)

/-- 44_frame_write.md R126. -/
def Obligations.FlushWritesTheWholeFrame : Prop :=
  encode .flush = [0x30#8] ∧
  ∀ s : State, ∃ t, exec .flush s = .next t ∧ t = { s with out := t.out } ∧
    t.out.length = s.out.length + 1024 ∧ s.out <+: t.out ∧
    ∀ n, n < 1024 → t.out[s.out.length + n]? =
      some { h := BitVec.ofNat 1 (n / 512), p := BitVec.ofNat 3 (n / 64 % 8), hc := BitVec.ofNat 6 (n % 64),
             d := fbByte s.fb (128 * (n / 64 % 8) + (64 * (n / 512) + n % 64)) }

/-! ## What the commands' rules imply -/

/-- 43_gauge.md R116: bounds, ends and monotony of the mapping from `percent` to filled columns. -/
def Obligations.GaugeFillMapping : Prop :=
  ∀ percent width : Nat, percent ≤ 100 → width ≤ 255 →
    gaugeFill percent width = percent * width / 100 ∧ percent * width ≤ 25500 ∧
    gaugeFill percent width ≤ width ∧
    (percent = 0 ∨ width = 0 → gaugeFill percent width = 0) ∧
    (gaugeFill percent width = width ↔ percent = 100 ∨ width = 0) ∧
    ∀ percent', percent ≤ percent' → percent' ≤ 100 → gaugeFill percent width ≤ gaugeFill percent' width

/-- 43_gauge.md R117: the two gauge properties, for a gauge in which no column is visited twice. -/
def Obligations.GaugeHollowAtZeroAndTogglesAtHundred : Prop :=
  ∀ (x y width height : Byte) (s : State), width.toNat ≤ 127 → 0 < height.toNat → y.toNat + height.toNat ≤ 64 →
    (∃ t, exec (.drawgauge x y width height 0#8) s = .next t ∧
      (∀ i r, i < width.toNat → r < height.toNat → pixGet t.fb (x.toNat + i) (y.toNat + r) =
        if r = 0 ∨ r = height.toNat - 1 then true else pixGet s.fb (x.toNat + i) (y.toNat + r)) ∧
      ∀ r, r < height.toNat → pixGet t.fb (x.toNat + width.toNat) (y.toNat + r) = true) ∧
    (∃ t u, exec (.drawgauge x y width height 100#8) s = .next t ∧
      exec (.drawgauge x y width height 100#8) t = .next u ∧
      (∀ i r, i < width.toNat → r < height.toNat →
        pixGet t.fb (x.toNat + i) (y.toNat + r) = !pixGet s.fb (x.toNat + i) (y.toNat + r) ∧
        pixGet u.fb (x.toNat + i) (y.toNat + r) = pixGet s.fb (x.toNat + i) (y.toNat + r)) ∧
      ∀ r, r < height.toNat → pixGet t.fb (x.toNat + width.toNat) (y.toNat + r) = true ∧
        pixGet u.fb (x.toNat + width.toNat) (y.toNat + r) = true)

/-- 42_text.md R104: a shorter text at the same origin replaces its own cells and leaves the tail of the longer one. -/
def Obligations.ShorterTextLeavesTheTail : Prop :=
  ∀ (x y : Byte) (long short : List Byte) (s : State), y.toNat ≤ 48 → short.length ≤ long.length → long.length ≤ 16 →
    ∃ t u, exec (.drawtext x y long) s = .next t ∧ exec (.drawtext x y short) t = .next u ∧
      (∀ (k : Nat) (hk : k < short.length) (row col : Nat), row < 16 → col < 8 →
        pixGet u.fb (x.toNat + 8 * k + col) (y.toNat + row) = glyphBit Config.params short[k] row col) ∧
      (∀ (k : Nat) (hk : k < long.length) (row col : Nat), short.length ≤ k → row < 16 → col < 8 →
        pixGet u.fb (x.toNat + 8 * k + col) (y.toNat + row) = glyphBit Config.params long[k] row col)

/-- 41_glyph_blit.md R90, corner cases: the same character again changes nothing, and another character leaves no trace of
the first. In a Framebuffer in canonical form (an invariant: `EveryStepKeepsTheInvariant`). -/
def Obligations.SecondCharacterLeavesNoTrace : Prop :=
  ∀ (x y code code' : Byte) (s : State), fbWf s.fb = true → y.toNat ≤ 48 →
    ∃ t u v, exec (.drawchar x y code) s = .next t ∧ exec (.drawchar x y code') t = .next u ∧
      exec (.drawchar x y code') s = .next v ∧ u = v ∧ exec (.drawchar x y code) t = .next t

/-- 42_text.md R103 a and d: with all 64 cells written, the picture is a function of the Text Grid and the Font Table
alone, and DRAWGRID again gives the same picture. -/
def Obligations.DrawgridForgetsThePicture : Prop :=
  ∀ s s' : State, fbWf s.fb = true → fbWf s'.fb = true → s.tg = s'.tg →
    (∀ c, c < 64 → ∃ v, Memory.read c s.tg = some v) →
    ∃ t t' u, exec .drawgrid s = .next t ∧ exec .drawgrid s' = .next t' ∧ exec .drawgrid t = .next u ∧
      t.fb = t'.fb ∧ u.fb = t.fb

/-- 20_memory.md R48: the byte FLUSH reads at `(p, c)` has in its bit `b` the pixel `(c, 8p + b)`. -/
def Obligations.FlushCarriesThePixels : Prop :=
  ∀ (s : State) (h p hc b : Nat), h < 2 → p < 8 → hc < 64 → b < 8 →
    ∃ t beat, exec .flush s = .next t ∧ t.out[s.out.length + (512 * h + 64 * p + hc)]? = some beat ∧
      beat.h.toNat = h ∧ beat.p.toNat = p ∧ beat.hc.toNat = hc ∧
      beat.d.getLsbD b = pixGet s.fb (64 * h + hc) (8 * p + b)

/-- 44_frame_write.md R128: the four-capability view loses nothing, and a frame has 2 half-selects, 16 page-selects and
1024 byte-writes. -/
def Obligations.StrobeViewLosesNothing : Prop :=
  (∀ (beats : List Beat) (h : BitVec 1) (hc : BitVec 6), (∀ b, beats.head? = some b → b.hc = 0#6) →
    (∀ (n : Nat) (a b : Beat), beats[n]? = some a → beats[n + 1]? = some b → b.hc ≠ 0#6 → b.p = a.p) →
    ∀ p, replay h p hc (strobes none beats) = beats) ∧
  ∀ fb : List Host.Cell,
    replay 0#1 0#3 0#6 (strobes none (frameBeats fb)) = frameBeats fb ∧
    ((strobes none (frameBeats fb)).countP fun | .selectHalf _ => true | _ => false) = 2 ∧
    ((strobes none (frameBeats fb)).countP fun | .selectPage _ => true | _ => false) = 16 ∧
    ((strobes none (frameBeats fb)).countP fun | .writeByte _ => true | _ => false) = 1024

/-! ## Faults, halt and reset -/

/-- 60_exceptions.md R136 (priority of R138): whether and how a command faults is a function of its own bytes; a fault
records cause and opcode and changes nothing else; a command that does not fault leaves the block running. -/
def Obligations.FaultsAreAFunctionOfTheBytes : Prop :=
  (∀ (i : Instr) (s : State), i.WellFormed = true → s.Running →
    (faultOf i ≠ 0#2 → exec i s = .next { s with fcause := faultOf i, fop := opcodeOf i }) ∧
    (faultOf i = 0#2 → ∃ t, exec i s = .next t ∧ t.fcause = s.fcause ∧ t.fop = s.fop)) ∧
  ∀ (s : State) (op : Byte) (rest : List HostEvent), s.Running → s.latch = [] → s.cmd = .byte op :: rest →
    op ∉ opcodes → step s = .next { s with cmd := rest, fcause := 1#2, fop := op }

/-- 10_state.md R10, R12, R13, R18: which commands write which part of the state. -/
def Obligations.WhoWritesWhat : Prop :=
  ∀ (i : Instr) (s t : State), exec i s = .next t →
    (drawsPixels i = false → t.fb = s.fb) ∧ (fillsGrid i = false → t.tg = s.tg) ∧
    ((∀ x y, i ≠ .getpx x y) → t.rsp = s.rsp) ∧ (i ≠ .flush → t.out = s.out) ∧
    (faultOf i = 0#2 ∨ ¬ s.Running → t.fcause = s.fcause ∧ t.fop = s.fop) ∧
    t.latch = s.latch ∧ t.cmd = s.cmd

/-- 60_exceptions.md R139: a halted block takes every byte and discards it. -/
def Obligations.HaltedBlockDiscardsBytes : Prop :=
  ∀ (bytes : List Byte) (rest : List HostEvent) (s : State), ¬ s.Running →
    s.cmd = bytes.map HostEvent.byte ++ rest →
    Sys2Proof.core.run bytes.length s = .next { s with cmd := rest }

/-- 60_exceptions.md R140: no step but one that takes a reset event changes the fault registers of a halted block, and
that one clears the Framebuffer; without a reset event no run ends running. -/
def Obligations.OnlyResetLeavesTheHalt : Prop :=
  ∀ s : State, ¬ s.Running →
    (s.cmd = [] → step s = .next s) ∧
    (∀ b rest, s.cmd = .byte b :: rest → step s = .next { s with cmd := rest }) ∧
    (∀ rest, s.cmd = .reset :: rest → ∃ t, step s = .next t ∧ t.Running ∧ ∀ a, fbByte t.fb a = 0#8) ∧
    (∀ b rest, s.cmd = .byteThenReset b :: rest → ∃ t, step s = .next t ∧ t.Running ∧ ∀ a, fbByte t.fb a = 0#8) ∧
    ∀ k, (∀ e ∈ s.cmd, ∃ b, e = .byte b) → ¬ SafeRun k s

/-- 10_state.md R20: what reset leaves. -/
def Obligations.ResetStateIsTheSpecs : Prop :=
  State.reset.BlockReset ∧ (∀ x y, pixGet State.reset.fb x y = false) ∧ State.reset.rsp = [] ∧ State.reset.out = [] ∧
  State.reset.faultPins = (0#2, 0#8, false)

/-- 70_reset_and_hazards.md R155: the reset event, between bytes and during an execution; a FLUSH cut short has emitted
some beginning of its 1024 beats. -/
def Obligations.ResetEventPutsEverythingBack : Prop :=
  (∀ (s : State) (rest : List HostEvent), s.cmd = .reset :: rest →
    ∃ t, step s = .next t ∧ t.BlockReset ∧ t.rsp = s.rsp ∧ t.out = s.out) ∧
  (∀ (s : State) (b : Byte) (rest : List HostEvent), s.Inv → s.cmd = .byteThenReset b :: rest →
    ∃ u t, takeByte b { s with cmd := rest } = .next u ∧ step s = .next t ∧ t.BlockReset ∧
      s.rsp <+: t.rsp ∧ t.rsp <+: u.rsp ∧ s.out <+: t.out ∧ t.out <+: u.out) ∧
  (∀ (s : State) (rest : List HostEvent), s.Running → s.latch = [] → s.cmd = .byteThenReset 0x30#8 :: rest →
    ∃ t n, n ≤ 1024 ∧ step s = .next t ∧ t.BlockReset ∧ t.out = s.out ++ (frameBeats s.fb).take n)

/-- 30_encoding.md R60: with nothing presented, or with part of a command in the latch, the block waits. -/
def Obligations.BlockWaitsForTheHost : Prop :=
  (∀ s : State, s.cmd = [] → step s = .next s) ∧
  ∀ (s : State) (b : Byte) (rest : List HostEvent), s.Running → s.cmd = .byte b :: rest →
    decode (s.latch ++ [b]) = .incomplete → step s = .next { s with latch := s.latch ++ [b], cmd := rest }

/-! ## Steps and runs -/

/-- 30_encoding.md R61: when the byte taken completes a command, the step is that command's meaning, the latch being
empty and the byte taken. -/
def Obligations.StepRunsTheDecodedCommand : Prop :=
  ∀ (s : State) (b : Byte) (rest : List HostEvent) (i : Instr), s.Running → s.cmd = .byte b :: rest →
    decode (s.latch ++ [b]) = .command i [] → step s = exec i { s with latch := [], cmd := rest }

/-- 30_encoding.md R61: no effect until the last byte, then the whole effect; an illegal opcode byte at once. -/
def Obligations.CommandActsWhenItsLastByteIsTaken : Prop :=
  (∀ (i : Instr) (s : State) (rest : List HostEvent), i.WellFormed = true → s.Running → s.latch = [] →
    s.cmd = (encode i).map HostEvent.byte ++ rest →
    (∀ n, n < (encode i).length → Sys2Proof.core.run n s =
      .next { s with latch := (encode i).take n, cmd := ((encode i).drop n).map HostEvent.byte ++ rest }) ∧
    Sys2Proof.core.run (encode i).length s = exec i { s with latch := [], cmd := rest }) ∧
  ∀ (op : Byte) (s : State) (rest : List HostEvent), op ∉ opcodes → s.Running → s.latch = [] →
    s.cmd = .byte op :: rest →
    Sys2Proof.core.run 1 s = .next { s with cmd := rest, fcause := 1#2, fop := op }

/-- 20_memory.md R50; 70_reset_and_hazards.md R170: the machine that takes bytes is the machine that executes commands,
for every sequence of commands, faults included. -/
def Obligations.BytesRefineCommands : Prop :=
  ∀ (is : List Instr) (s : State) (rest : List HostEvent), (∀ i ∈ is, i.WellFormed = true) → s.latch = [] →
    s.cmd = (encodeAll is).map HostEvent.byte ++ rest →
    Sys2Proof.core.run (encodeAll is).length s = runCommands is { s with cmd := rest }

/-- A well-formed command always answers a next state; a term that no bytes carry (30_encoding.md R64, R65) is refused
by name (the model's choice, notes/assumptions/12.md). -/
def Obligations.WellFormedCommandsComplete : Prop :=
  ∀ (i : Instr) (s : State),
    (i.WellFormed = true → ∃ t, exec i s = .next t) ∧ (i.WellFormed = false → exec i s = .refused .illFormed)

/-- 10_state.md R19, R21: the invariant is kept by every step, from every state that meets it. -/
def Obligations.EveryStepKeepsTheInvariant : Prop :=
  ∀ s t : State, s.Inv → step s = .next t → t.Inv

/-- The reset state meets the invariant. -/
def Obligations.ResetMeetsTheInvariant : Prop := State.reset.Inv

/-- From every state that meets the invariant the block goes on for ever: no fault of the model, no refusal. -/
def Obligations.EveryRunGoesOn : Prop :=
  ∀ (k : Nat) (s : State), s.Inv → ∃ t : State, Sys2Proof.core.run k s = .next t ∧ t.Inv

/-- 10_state.md R19: the latch never holds more than 258 bytes of a command not yet complete. -/
def Obligations.LatchIsBounded : Prop := ∀ s : State, s.Inv → s.latch.length ≤ 258

/-- 70_reset_and_hazards.md R155: what has crossed an output port stays handed over. -/
def Obligations.OutputHistoriesOnlyGrow : Prop :=
  ∀ s t : State, step s = .next t → s.rsp <+: t.rsp ∧ s.out <+: t.out

/-- 40_framebuffer_ops.md R83: only 0x00 and 0x01 ever cross `RSP`. -/
def Obligations.ResponsesAreZeroOrOne : Prop :=
  ∀ s t : State, (∀ b ∈ s.rsp, b = 0x00#8 ∨ b = 0x01#8) → step s = .next t → ∀ b ∈ t.rsp, b = 0x00#8 ∨ b = 0x01#8

/-- 95_test_vectors.md S1, S2, as bytes on `CMD`: set then query answers 1, clear then query answers 0, for every `x` and
every `y` in range. -/
def Obligations.SetThenQueryOverTheWire : Prop :=
  ∀ (x y : Byte) (s : State) (rest : List HostEvent), y.toNat < 64 → s.Running → s.latch = [] →
    (s.cmd = [0x02#8, x, y, 0x04#8, x, y].map HostEvent.byte ++ rest →
      ∃ t : State, Sys2Proof.core.run 6 s = .next t ∧ t.rsp = s.rsp ++ [0x01#8] ∧ t.cmd = rest) ∧
    (s.cmd = [0x03#8, x, y, 0x04#8, x, y].map HostEvent.byte ++ rest →
      ∃ t : State, Sys2Proof.core.run 6 s = .next t ∧ t.rsp = s.rsp ++ [0x00#8] ∧ t.cmd = rest) ∧
    (s.cmd = [0x01#8, 0x04#8, x, y].map HostEvent.byte ++ rest →
      ∃ t : State, Sys2Proof.core.run 4 s = .next t ∧ t.rsp = s.rsp ++ [0x00#8] ∧ t.cmd = rest)
end

