-- ==== Sys2Proof/Laws/State.lean ====
section
/-! SUPPORT. The fields of the state after each shared update, one lemma per field, true by rfl or by the update's one
case split. -/

namespace Sys2Proof.Machine

open Sys2Proof

/-! `emitRsp` and `emitOut` -/

@[simp] theorem emitRsp_rsp (b : Byte) (s : State) : (emitRsp b s).rsp = s.rsp ++ [b] := rfl
@[simp] theorem emitRsp_out (b : Byte) (s : State) : (emitRsp b s).out = s.out := rfl
@[simp] theorem emitRsp_fb (b : Byte) (s : State) : (emitRsp b s).fb = s.fb := rfl
@[simp] theorem emitRsp_tg (b : Byte) (s : State) : (emitRsp b s).tg = s.tg := rfl
@[simp] theorem emitRsp_fcause (b : Byte) (s : State) : (emitRsp b s).fcause = s.fcause := rfl
@[simp] theorem emitRsp_fop (b : Byte) (s : State) : (emitRsp b s).fop = s.fop := rfl
@[simp] theorem emitRsp_latch (b : Byte) (s : State) : (emitRsp b s).latch = s.latch := rfl
@[simp] theorem emitRsp_cmd (b : Byte) (s : State) : (emitRsp b s).cmd = s.cmd := rfl
@[simp] theorem emitRsp_draw (b : Byte) (s : State) : (emitRsp b s).draw = s.draw := rfl

@[simp] theorem emitOut_out (beats : List Beat) (s : State) : (emitOut beats s).out = s.out ++ beats := rfl
@[simp] theorem emitOut_rsp (beats : List Beat) (s : State) : (emitOut beats s).rsp = s.rsp := rfl
@[simp] theorem emitOut_fb (beats : List Beat) (s : State) : (emitOut beats s).fb = s.fb := rfl
@[simp] theorem emitOut_tg (beats : List Beat) (s : State) : (emitOut beats s).tg = s.tg := rfl
@[simp] theorem emitOut_fcause (beats : List Beat) (s : State) : (emitOut beats s).fcause = s.fcause := rfl
@[simp] theorem emitOut_fop (beats : List Beat) (s : State) : (emitOut beats s).fop = s.fop := rfl
@[simp] theorem emitOut_latch (beats : List Beat) (s : State) : (emitOut beats s).latch = s.latch := rfl
@[simp] theorem emitOut_cmd (beats : List Beat) (s : State) : (emitOut beats s).cmd = s.cmd := rfl
@[simp] theorem emitOut_draw (beats : List Beat) (s : State) : (emitOut beats s).draw = s.draw := rfl

/-! `raiseFault` writes nothing but the fault registers, and those only while the block runs. -/

theorem halted_eq_false_iff (s : State) : s.halted = false ↔ s.Running := by
  simp [State.halted]

theorem raiseFault_of_running {cause : BitVec 2} {op : Byte} {s : State} (h : s.Running) :
    raiseFault cause op s = { s with fcause := cause, fop := op } := by
  simp [raiseFault, (halted_eq_false_iff s).2 h]

theorem raiseFault_of_halted {cause : BitVec 2} {op : Byte} {s : State} (h : ¬ s.Running) :
    raiseFault cause op s = s := by
  simp [raiseFault, State.halted, h]

@[simp] theorem raiseFault_fb (cause : BitVec 2) (op : Byte) (s : State) : (raiseFault cause op s).fb = s.fb := by
  unfold raiseFault; split <;> rfl
@[simp] theorem raiseFault_tg (cause : BitVec 2) (op : Byte) (s : State) : (raiseFault cause op s).tg = s.tg := by
  unfold raiseFault; split <;> rfl
@[simp] theorem raiseFault_latch (cause : BitVec 2) (op : Byte) (s : State) :
    (raiseFault cause op s).latch = s.latch := by
  unfold raiseFault; split <;> rfl
@[simp] theorem raiseFault_rsp (cause : BitVec 2) (op : Byte) (s : State) : (raiseFault cause op s).rsp = s.rsp := by
  unfold raiseFault; split <;> rfl
@[simp] theorem raiseFault_out (cause : BitVec 2) (op : Byte) (s : State) : (raiseFault cause op s).out = s.out := by
  unfold raiseFault; split <;> rfl
@[simp] theorem raiseFault_cmd (cause : BitVec 2) (op : Byte) (s : State) : (raiseFault cause op s).cmd = s.cmd := by
  unfold raiseFault; split <;> rfl
@[simp] theorem raiseFault_draw (cause : BitVec 2) (op : Byte) (s : State) :
    (raiseFault cause op s).draw = s.draw := by
  unfold raiseFault; split <;> rfl

/-! `resetEvent` -/

@[simp] theorem resetEvent_fb (s : State) : (resetEvent s).fb = [] := rfl
@[simp] theorem resetEvent_tg (s : State) : (resetEvent s).tg = [] := rfl
@[simp] theorem resetEvent_fcause (s : State) : (resetEvent s).fcause = causeNone := rfl
@[simp] theorem resetEvent_fop (s : State) : (resetEvent s).fop = 0#8 := rfl
@[simp] theorem resetEvent_latch (s : State) : (resetEvent s).latch = [] := rfl
@[simp] theorem resetEvent_rsp (s : State) : (resetEvent s).rsp = s.rsp := rfl
@[simp] theorem resetEvent_out (s : State) : (resetEvent s).out = s.out := rfl
@[simp] theorem resetEvent_cmd (s : State) : (resetEvent s).cmd = s.cmd := rfl
@[simp] theorem resetEvent_draw (s : State) : (resetEvent s).draw = s.draw := rfl

/-! `cutShort` -/

@[simp] theorem cutShort_fb (s t : State) : (cutShort s t).fb = [] := rfl
@[simp] theorem cutShort_tg (s t : State) : (cutShort s t).tg = [] := rfl
@[simp] theorem cutShort_fcause (s t : State) : (cutShort s t).fcause = causeNone := rfl
@[simp] theorem cutShort_fop (s t : State) : (cutShort s t).fop = 0#8 := rfl
@[simp] theorem cutShort_latch (s t : State) : (cutShort s t).latch = [] := rfl
@[simp] theorem cutShort_cmd (s t : State) : (cutShort s t).cmd = s.cmd := rfl

end Sys2Proof.Machine
end

