-- ==== Sys2Proof/Laws/Decode.lean ====
section
/-! SUPPORT. The decoder, opcode by opcode and format by format (30_encoding.md R63 to R66), and what taking a byte can
lead to (R60, R61). -/

namespace Sys2Proof

/-! One equation per opcode byte. -/

theorem decode_nil : decode [] = .incomplete := rfl
theorem decode_opClear (rest : List Byte) : decode (opClear :: rest) = .command .clear rest := rfl
theorem decode_opSetpx (rest : List Byte) : decode (opSetpx :: rest) = decodeXY .setpx rest := rfl
theorem decode_opClrpx (rest : List Byte) : decode (opClrpx :: rest) = decodeXY .clrpx rest := rfl
theorem decode_opGetpx (rest : List Byte) : decode (opGetpx :: rest) = decodeXY .getpx rest := rfl
theorem decode_opDrawchar (rest : List Byte) : decode (opDrawchar :: rest) = decode3 .drawchar rest := rfl
theorem decode_opDrawtext (rest : List Byte) : decode (opDrawtext :: rest) = decodeTxt rest := rfl
theorem decode_opTgset (rest : List Byte) : decode (opTgset :: rest) = decode3 .tgset rest := rfl
theorem decode_opTgload (rest : List Byte) : decode (opTgload :: rest) = decodeGrd rest := rfl
theorem decode_opDrawgrid (rest : List Byte) : decode (opDrawgrid :: rest) = .command .drawgrid rest := rfl
theorem decode_opDrawgauge (rest : List Byte) : decode (opDrawgauge :: rest) = decodeGau rest := rfl
theorem decode_opFlush (rest : List Byte) : decode (opFlush :: rest) = .command .flush rest := rfl

theorem decode_illegal {op : Byte} (h : op ∉ opcodes) (rest : List Byte) : decode (op :: rest) = .illegal op rest := by
  simp only [opcodes, List.mem_cons, List.not_mem_nil, or_false, not_or] at h
  simp [decode, h]

/-! Formats: what a whole command looks like. -/

theorem decodeXY_command {k : Byte → Byte → Instr} {bs rest : List Byte} {i : Instr}
    (h : decodeXY k bs = .command i rest) : ∃ x y, i = k x y ∧ bs = x :: y :: rest := by
  unfold decodeXY at h; split at h
  · cases h; exact ⟨_, _, rfl, rfl⟩
  · cases h

theorem decode3_command {k : Byte → Byte → Byte → Instr} {bs rest : List Byte} {i : Instr}
    (h : decode3 k bs = .command i rest) : ∃ a b c, i = k a b c ∧ bs = a :: b :: c :: rest := by
  unfold decode3 at h; split at h
  · cases h; exact ⟨_, _, _, rfl, rfl⟩
  · cases h

theorem decodeGau_command {bs rest : List Byte} {i : Instr} (h : decodeGau bs = .command i rest) :
    ∃ x y width height percent,
      i = .drawgauge x y width height percent ∧ bs = x :: y :: width :: height :: percent :: rest := by
  unfold decodeGau at h; split at h
  · cases h; exact ⟨_, _, _, _, _, rfl, rfl⟩
  · cases h

theorem decodeTxt_command {bs rest : List Byte} {i : Instr} (h : decodeTxt bs = .command i rest) :
    ∃ x y text, i = .drawtext x y text ∧ text.length ≤ 255 ∧
      bs = x :: y :: BitVec.ofNat 8 text.length :: (text ++ rest) := by
  unfold decodeTxt at h; split at h
  case h_2 => cases h
  case h_1 x y len r =>
    split at h
    case isFalse => cases h
    case isTrue hl =>
      cases h
      refine ⟨x, y, r.take len.toNat, rfl, ?_, ?_⟩
      · simp only [List.length_take]; have := len.isLt; omega
      · simp [List.length_take, Nat.min_eq_left hl]

theorem decodeGrd_command {bs rest : List Byte} {i : Instr} (h : decodeGrd bs = .command i rest) :
    ∃ cells, i = .tgload cells ∧ cells.length = 64 ∧ bs = cells ++ rest := by
  unfold decodeGrd at h; split at h
  case isFalse => cases h
  case isTrue hl => cases h; exact ⟨bs.take 64, rfl, by simp [hl], by simp⟩

theorem decodeTxt_append (x y : Byte) (text rest : List Byte) (h : text.length ≤ 255) :
    decodeTxt (x :: y :: BitVec.ofNat 8 text.length :: (text ++ rest)) = .command (.drawtext x y text) rest := by
  have hl : text.length % 256 = text.length := Nat.mod_eq_of_lt (by omega)
  simp [decodeTxt, BitVec.toNat_ofNat, hl]

theorem decodeGrd_append (cells rest : List Byte) (h : cells.length = 64) :
    decodeGrd (cells ++ rest) = .command (.tgload cells) rest := by
  rw [decodeGrd, if_pos (by simp [h]), List.take_left' h, List.drop_left' h]

/-! Formats: never illegal, and one byte more than too few is not more than enough. -/

/-- What a format's decoder answers on bytes that grow by one: incomplete, or complete with nothing left over. -/
def EndsWithLast (d : List Byte → Decoded) : Prop :=
  ∀ bs b, d bs = .incomplete → d (bs ++ [b]) = .incomplete ∨ ∃ i, d (bs ++ [b]) = .command i []

theorem decodeXY_endsWithLast (k : Byte → Byte → Instr) : EndsWithLast (decodeXY k) := by
  intro bs b h
  match bs with
  | [] => exact .inl rfl
  | [x] => exact .inr ⟨_, rfl⟩
  | _ :: _ :: _ => cases h

theorem decode3_endsWithLast (k : Byte → Byte → Byte → Instr) : EndsWithLast (decode3 k) := by
  intro bs b h
  match bs with
  | [] => exact .inl rfl
  | [_] => exact .inl rfl
  | [_, _] => exact .inr ⟨_, rfl⟩
  | _ :: _ :: _ :: _ => cases h

theorem decodeGau_endsWithLast : EndsWithLast decodeGau := by
  intro bs b h
  match bs with
  | [] => exact .inl rfl
  | [_] => exact .inl rfl
  | [_, _] => exact .inl rfl
  | [_, _, _] => exact .inl rfl
  | [_, _, _, _] => exact .inr ⟨_, rfl⟩
  | _ :: _ :: _ :: _ :: _ :: _ => cases h

theorem decodeTxt_endsWithLast : EndsWithLast decodeTxt := by
  intro bs b h
  match bs with
  | [] => exact .inl rfl
  | [_] => exact .inl rfl
  | [x, y] =>
    by_cases hb : b.toNat ≤ 0
    · refine .inr ⟨.drawtext x y [], ?_⟩
      simp [decodeTxt, Nat.le_zero.1 hb]
    · refine .inl ?_
      simp [decodeTxt, show ¬ b.toNat = 0 by omega]
  | x :: y :: len :: r =>
    simp only [decodeTxt] at h
    split at h
    case isTrue => cases h
    case isFalse hl =>
      simp only [decodeTxt, List.cons_append, List.length_append, List.length_singleton]
      by_cases h2 : len.toNat ≤ r.length + 1
      · have : len.toNat = r.length + 1 := by omega
        exact .inr ⟨_, by rw [if_pos h2]; congr 1; rw [this]; exact List.drop_eq_nil_of_le (by simp)⟩
      · exact .inl (if_neg h2)

theorem decodeGrd_endsWithLast : EndsWithLast decodeGrd := by
  intro bs b h
  unfold decodeGrd at h ⊢
  split at h
  case isTrue => cases h
  case isFalse hl =>
    simp only [List.length_append, List.length_singleton]
    by_cases h2 : 64 ≤ bs.length + 1
    · exact .inr ⟨_, by rw [if_pos h2]; congr 1; exact List.drop_eq_nil_of_le (by simp; omega)⟩
    · exact .inl (if_neg h2)

/-- A beginning of a command and one byte more: still a beginning, or a whole command with nothing left over, or an
illegal opcode byte where no byte had come before (R61, R66). -/
theorem decode_append_byte {latch : List Byte} (h : decode latch = .incomplete) (b : Byte) :
    decode (latch ++ [b]) = .incomplete ∨ (∃ i, decode (latch ++ [b]) = .command i []) ∨
      (latch = [] ∧ b ∉ opcodes ∧ decode (latch ++ [b]) = .illegal b []) := by
  cases latch with
  | nil =>
    by_cases hb : b ∈ opcodes
    · simp only [opcodes, List.mem_cons, List.not_mem_nil, or_false] at hb
      rcases hb with rfl | rfl | rfl | rfl | rfl | rfl | rfl | rfl | rfl | rfl | rfl
      all_goals first | exact .inl rfl | exact .inr (.inl ⟨_, rfl⟩)
    · exact .inr (.inr ⟨rfl, hb, decode_illegal hb []⟩)
  | cons op bs =>
    by_cases hop : op ∈ opcodes
    case neg => rw [decode_illegal hop] at h; cases h
    simp only [opcodes, List.mem_cons, List.not_mem_nil, or_false] at hop
    have lift : ∀ d : List Byte → Decoded, EndsWithLast d → d bs = .incomplete →
        d (bs ++ [b]) = .incomplete ∨ (∃ i, d (bs ++ [b]) = .command i []) ∨
          (op :: bs = [] ∧ b ∉ opcodes ∧ d (bs ++ [b]) = .illegal b []) :=
      fun d hd hbs => (hd bs b hbs).elim .inl fun h => .inr (.inl h)
    rcases hop with rfl | rfl | rfl | rfl | rfl | rfl | rfl | rfl | rfl | rfl | rfl
    · cases h
    · exact lift _ (decodeXY_endsWithLast _) h
    · exact lift _ (decodeXY_endsWithLast _) h
    · exact lift _ (decodeXY_endsWithLast _) h
    · exact lift _ (decode3_endsWithLast _) h
    · exact lift _ decodeTxt_endsWithLast h
    · exact lift _ (decode3_endsWithLast _) h
    · exact lift _ decodeGrd_endsWithLast h
    · cases h
    · exact lift _ decodeGau_endsWithLast h
    · cases h

end Sys2Proof

namespace Sys2Proof.Machine

open Sys2Proof

/-- Everything taking a byte can lead to when the latch holds a beginning of a command. -/
theorem acceptByte_cases {latch : List Byte} (h : decode latch = .incomplete) (b : Byte) :
    (acceptByte latch b = .waiting (latch ++ [b]) ∧ decode (latch ++ [b]) = .incomplete) ∨
      (∃ i, acceptByte latch b = .complete i ∧ decode (latch ++ [b]) = .command i []) ∨
      (acceptByte latch b = .illegal b ∧ latch = [] ∧ b ∉ opcodes) := by
  unfold acceptByte
  rcases decode_append_byte h b with h | ⟨i, h⟩ | ⟨h1, h2, h⟩
  · exact .inl ⟨by rw [h], h⟩
  · exact .inr (.inl ⟨i, by rw [h], h⟩)
  · exact .inr (.inr ⟨by rw [h], h1, h2⟩)

end Sys2Proof.Machine
end

