-- ==== Sys2Proof/Laws/Memory.lean ====
section
/-! SUPPORT. The address spaces: what a read gives after a write, and that every write keeps the canonical form. -/

namespace Sys2Proof.Machine

open Sys2Proof

/-! Reads after writes and erasures, on any list. -/

theorem Memory.read_write (a a' : Nat) (v : Byte) (m : List Host.Cell) :
    Memory.read a' (Memory.write a v m) = if a = a' then some v else Memory.read a' m := by
  induction m with
  | nil => simp [Memory.read, Memory.write]
  | cons cell rest ih =>
    obtain ⟨k, w⟩ := cell
    by_cases h1 : a < k
    · simp [Memory.write, h1, Memory.read]
    · by_cases h2 : a = k
      · subst h2; simp only [Memory.write, h1, Memory.read]
        by_cases h : a = a' <;> simp [h, Memory.read]
      · simp only [Memory.write, h1, h2, Memory.read, ih, if_false]
        by_cases h3 : k = a'
        · have : ¬ a = a' := fun h => h2 (h.trans h3.symm)
          simp [h3, this]
        · simp [h3]

theorem Memory.read_erase (a a' : Nat) (m : List Host.Cell) :
    Memory.read a' (Memory.erase a m) = if a = a' then none else Memory.read a' m := by
  induction m with
  | nil => simp [Memory.read, Memory.erase]
  | cons cell rest ih =>
    obtain ⟨k, w⟩ := cell
    unfold Memory.erase at ih ⊢
    by_cases h1 : k = a
    · subst h1
      simp only [List.filter_cons, bne_self_eq_false, Bool.false_eq_true, if_false, ih, Memory.read]
      by_cases h : k = a' <;> simp [h]
    · have : (k != a) = true := by simp [h1]
      simp only [List.filter_cons, this, if_true, Memory.read, ih]
      by_cases h : k = a'
      · have : ¬ a = a' := fun h' => h1 (h.trans h'.symm)
        simp [h, this]
      · simp [h]

theorem fbByte_fbWrite (fb : List Host.Cell) (a a' : Nat) (v : Byte) :
    fbByte (fbWrite fb a v) a' = if a = a' ∧ a < 1024 then v else fbByte fb a' := by
  unfold fbByte fbWrite
  by_cases ha : a < 1024
  · rw [if_pos ha]
    by_cases hv : v = 0#8
    · rw [if_pos hv, Memory.read_erase]
      by_cases h : a = a' <;> simp_all
    · rw [if_neg hv, Memory.read_write]
      by_cases h : a = a' <;> simp_all
  · simp [ha]

theorem read_tgWrite (tg : List Host.Cell) (t t' : Nat) (v : Byte) :
    Memory.read t' (tgWrite tg t v) = if t = t' ∧ t < 64 then some v else Memory.read t' tg := by
  unfold tgWrite
  by_cases h : t < 64
  · rw [if_pos h, Memory.read_write]
    by_cases h' : t = t' <;> simp_all
  · simp [h]

@[simp] theorem fbByte_nil (a : Nat) : fbByte [] a = 0#8 := rfl

/-! The canonical form. -/

theorem Memory.rising_mono {size lo lo' : Nat} {m : List Host.Cell} (h : Memory.rising size lo m = true)
    (hlo : lo' ≤ lo) : Memory.rising size lo' m = true := by
  cases m with
  | nil => rfl
  | cons cell rest =>
    simp only [Memory.rising, Bool.and_eq_true, decide_eq_true_eq] at h ⊢
    exact ⟨⟨by omega, h.1.2⟩, h.2⟩

theorem Memory.rising_write {size : Nat} (a : Nat) (v : Byte) (ha : a < size) (m : List Host.Cell) :
    ∀ lo, lo ≤ a → Memory.rising size lo m = true → Memory.rising size lo (Memory.write a v m) = true := by
  induction m with
  | nil => intro lo h _; simp [Memory.write, Memory.rising, h, ha]
  | cons cell rest ih =>
    intro lo hlo h
    obtain ⟨k, w⟩ := cell
    simp only [Memory.rising, Bool.and_eq_true, decide_eq_true_eq] at h
    by_cases h1 : a < k
    · simp only [Memory.write, h1, if_true, Memory.rising, Bool.and_eq_true, decide_eq_true_eq]
      exact ⟨⟨hlo, ha⟩, ⟨by omega, h.1.2⟩, h.2⟩
    · by_cases h2 : a = k
      · subst h2
        simp only [Memory.write, h1, if_true, if_false, Memory.rising, Bool.and_eq_true, decide_eq_true_eq]
        exact h
      · simp only [Memory.write, h1, h2, if_false, Memory.rising, Bool.and_eq_true, decide_eq_true_eq]
        exact ⟨h.1, ih (k + 1) (by omega) h.2⟩

theorem Memory.rising_erase {size : Nat} (a : Nat) (m : List Host.Cell) :
    ∀ lo, Memory.rising size lo m = true → Memory.rising size lo (Memory.erase a m) = true := by
  induction m with
  | nil => intro lo h; exact h
  | cons cell rest ih =>
    intro lo h
    obtain ⟨k, w⟩ := cell
    simp only [Memory.rising, Bool.and_eq_true, decide_eq_true_eq] at h
    unfold Memory.erase at ih ⊢
    by_cases h1 : k = a
    · simp only [List.filter_cons, h1, bne_self_eq_false, Bool.false_eq_true, if_false]
      exact Memory.rising_mono (ih (k + 1) h.2) (by omega)
    · have h2 : (k != a) = true := by simp [h1]
      simp only [List.filter_cons, h2, if_true, Memory.rising, Bool.and_eq_true, decide_eq_true_eq]
      exact ⟨h.1, ih (k + 1) h.2⟩

theorem Memory.all_write (p : Host.Cell → Bool) (a : Nat) (v : Byte) (hv : p (a, v) = true) (m : List Host.Cell)
    (h : m.all p = true) : (Memory.write a v m).all p = true := by
  induction m with
  | nil => simp [Memory.write, hv]
  | cons cell rest ih =>
    obtain ⟨k, w⟩ := cell
    simp only [List.all_cons, Bool.and_eq_true] at h
    unfold Memory.write
    split
    · simp only [List.all_cons, hv, h.1, h.2, Bool.and_self]
    · split
      · simp only [List.all_cons, hv, h.2, Bool.and_self]
      · simp only [List.all_cons, h.1, ih h.2, Bool.and_self]

theorem Memory.all_erase (p : Host.Cell → Bool) (a : Nat) (m : List Host.Cell) (h : m.all p = true) :
    (Memory.erase a m).all p = true := by
  simp only [Memory.erase, List.all_filter]
  simp only [List.all_eq_true] at h ⊢
  intro cell hc
  simp [h cell hc]

@[simp] theorem fbWf_nil : fbWf [] = true := rfl
@[simp] theorem tgWf_nil : tgWf [] = true := rfl

/-- Every Framebuffer write keeps the canonical form. -/
theorem fbWrite_wf {fb : List Host.Cell} (h : fbWf fb = true) (a : Nat) (v : Byte) : fbWf (fbWrite fb a v) = true := by
  simp only [fbWf, Memory.wf, Bool.and_eq_true] at h ⊢
  unfold fbWrite
  split
  case isFalse => exact h
  case isTrue ha =>
    split
    case isTrue => exact ⟨Memory.rising_erase a fb 0 h.1, Memory.all_erase _ a fb h.2⟩
    case isFalse hv =>
      exact ⟨Memory.rising_write a v ha fb 0 (Nat.zero_le a) h.1, Memory.all_write _ a v (by simpa using hv) fb h.2⟩

/-- Every Text Grid write keeps the canonical form. -/
theorem tgWrite_wf {tg : List Host.Cell} (h : tgWf tg = true) (t : Nat) (v : Byte) : tgWf (tgWrite tg t v) = true := by
  simp only [tgWf, Memory.wf, Bool.and_eq_true] at h ⊢
  unfold tgWrite
  split
  case isFalse => exact h
  case isTrue ht =>
    exact ⟨Memory.rising_write t v ht tg 0 (Nat.zero_le t) h.1, Memory.all_write _ t v rfl tg h.2⟩

/-! In canonical form, equal reads mean equal lists. -/

theorem Memory.read_eq_none_of_lt {size : Nat} {m : List Host.Cell} {lo a : Nat} (h : Memory.rising size lo m = true)
    (ha : a < lo) : Memory.read a m = none := by
  induction m generalizing lo with
  | nil => rfl
  | cons cell rest ih =>
    obtain ⟨k, w⟩ := cell
    simp only [Memory.rising, Bool.and_eq_true, decide_eq_true_eq] at h
    simp only [Memory.read, show ¬ k = a by omega, if_false]
    exact ih h.2 (by omega)

theorem Memory.eq_of_read_eq {size : Nat} (m m' : List Host.Cell) :
    ∀ lo, Memory.rising size lo m = true → Memory.rising size lo m' = true →
      (∀ a, Memory.read a m = Memory.read a m') → m = m' := by
  induction m generalizing m' with
  | nil =>
    intro lo _ _ h
    cases m' with
    | nil => rfl
    | cons cell rest => have := h cell.1; simp [Memory.read] at this
  | cons cell rest ih =>
    intro lo h1 h2 h
    obtain ⟨k, w⟩ := cell
    cases m' with
    | nil => have := h k; simp [Memory.read] at this
    | cons cell' rest' =>
      obtain ⟨k', w'⟩ := cell'
      simp only [Memory.rising, Bool.and_eq_true, decide_eq_true_eq] at h1 h2
      have hk : k = k' := by
        rcases Nat.lt_trichotomy k k' with hlt | heq | hgt
        · have := h k
          simp only [Memory.read, if_true, show ¬ k' = k by omega, if_false,
            Memory.read_eq_none_of_lt h2.2 (show k < k' + 1 by omega)] at this
          cases this
        · exact heq
        · have := h k'
          simp only [Memory.read, if_true, show ¬ k = k' by omega, if_false,
            Memory.read_eq_none_of_lt h1.2 (show k' < k + 1 by omega)] at this
          cases this
      subst hk
      have hw := h k
      simp only [Memory.read, if_true, Option.some.injEq] at hw
      subst hw
      refine congrArg _ (ih rest' (k + 1) h1.2 h2.2 fun a => ?_)
      by_cases hka : k = a
      · subst hka
        rw [Memory.read_eq_none_of_lt h1.2 (Nat.lt_succ_self k), Memory.read_eq_none_of_lt h2.2 (Nat.lt_succ_self k)]
      · have := h a
        simpa only [Memory.read, hka, if_false] using this

theorem Memory.mem_of_read {m : List Host.Cell} {a : Nat} {v : Byte} (h : Memory.read a m = some v) : (a, v) ∈ m := by
  induction m with
  | nil => cases h
  | cons cell rest ih =>
    obtain ⟨k, w⟩ := cell
    unfold Memory.read at h
    split at h
    case isTrue hk => cases h; subst hk; exact List.mem_cons_self
    case isFalse => exact List.mem_cons_of_mem _ (ih h)

/-- A listed Framebuffer byte is not 0x00, so that reading is the same as looking up. -/
theorem fb_read_eq {fb : List Host.Cell} (h : fbWf fb = true) (a : Nat) :
    Memory.read a fb = if fbByte fb a = 0#8 then none else some (fbByte fb a) := by
  simp only [fbWf, Memory.wf, Bool.and_eq_true, List.all_eq_true] at h
  unfold fbByte
  cases hr : Memory.read a fb with
  | none => simp
  | some v =>
    have := h.2 _ (Memory.mem_of_read hr)
    have hv : ¬ v = 0#8 := by simpa using this
    simp [hv]

theorem fb_ext {fb fb' : List Host.Cell} (h : fbWf fb = true) (h' : fbWf fb' = true)
    (heq : ∀ a, fbByte fb a = fbByte fb' a) : fb = fb' := by
  have hr : ∀ a, Memory.read a fb = Memory.read a fb' := fun a => by rw [fb_read_eq h, fb_read_eq h', heq]
  simp only [fbWf, Memory.wf, Bool.and_eq_true] at h h'
  exact Memory.eq_of_read_eq fb fb' 0 h.1 h'.1 hr

theorem tg_ext {tg tg' : List Host.Cell} (h : tgWf tg = true) (h' : tgWf tg' = true)
    (heq : ∀ t, Memory.read t tg = Memory.read t tg') : tg = tg' := by
  simp only [tgWf, Memory.wf, Bool.and_eq_true] at h h'
  exact Memory.eq_of_read_eq tg tg' 0 h.1 h'.1 heq

theorem Memory.read_eq_none_of_size {size : Nat} {m : List Host.Cell} {a : Nat} (ha : size ≤ a) :
    ∀ lo, Memory.rising size lo m = true → Memory.read a m = none := by
  induction m with
  | nil => intro lo _; rfl
  | cons cell rest ih =>
    intro lo h
    obtain ⟨k, w⟩ := cell
    simp only [Memory.rising, Bool.and_eq_true, decide_eq_true_eq] at h
    simp only [Memory.read, show ¬ k = a by omega, if_false]
    exact ih (k + 1) h.2

/-- Beyond the 1024 bytes there is nothing. -/
theorem fbByte_of_size_le {fb : List Host.Cell} (h : fbWf fb = true) {a : Nat} (ha : 1024 ≤ a) : fbByte fb a = 0#8 := by
  simp only [fbWf, Memory.wf, Bool.and_eq_true] at h
  simp [fbByte, Memory.read_eq_none_of_size ha 0 h.1]

end Sys2Proof.Machine
end

