-- ==== Sys2Proof/Laws/PerInstr.lean ====
section
/-! SUPPORT. What is said of every command as syntax, one lemma per constructor of `Instr`. -/

namespace Sys2Proof.Laws

/-- A command that bytes can carry is as long as its format says (30_encoding.md R64), and never longer than the latch
(10_state.md R19). -/
def EncodedLength.Statement (i : Instr) : Prop :=
  i.WellFormed = true → (encode i).length = commandLength i ∧ commandLength i ≤ 259

theorem EncodedLength.clear : EncodedLength.Statement .clear := fun _ => ⟨rfl, by decide⟩
theorem EncodedLength.setpx (x y : Byte) : EncodedLength.Statement (.setpx x y) := fun _ => ⟨rfl, by simp [commandLength]⟩
theorem EncodedLength.clrpx (x y : Byte) : EncodedLength.Statement (.clrpx x y) := fun _ => ⟨rfl, by simp [commandLength]⟩
theorem EncodedLength.getpx (x y : Byte) : EncodedLength.Statement (.getpx x y) := fun _ => ⟨rfl, by simp [commandLength]⟩
theorem EncodedLength.drawchar (x y code : Byte) : EncodedLength.Statement (.drawchar x y code) :=
  fun _ => ⟨rfl, by simp [commandLength]⟩
theorem EncodedLength.drawtext (x y : Byte) (text : List Byte) : EncodedLength.Statement (.drawtext x y text) := by
  intro h
  have hl : text.length ≤ 255 := of_decide_eq_true h
  exact ⟨by simp [encode, operandsOf, commandLength]; omega, by simp only [commandLength]; omega⟩
theorem EncodedLength.tgset (col row code : Byte) : EncodedLength.Statement (.tgset col row code) :=
  fun _ => ⟨rfl, by simp [commandLength]⟩
theorem EncodedLength.tgload (cells : List Byte) : EncodedLength.Statement (.tgload cells) := by
  intro h
  have hl : cells.length = 64 := of_decide_eq_true h
  exact ⟨by simp [encode, operandsOf, commandLength, hl], by simp [commandLength]⟩
theorem EncodedLength.drawgrid : EncodedLength.Statement .drawgrid := fun _ => ⟨rfl, by decide⟩
theorem EncodedLength.drawgauge (x y width height percent : Byte) :
    EncodedLength.Statement (.drawgauge x y width height percent) := fun _ => ⟨rfl, by simp [commandLength]⟩
theorem EncodedLength.flush : EncodedLength.Statement .flush := fun _ => ⟨rfl, by decide⟩

end Sys2Proof.Laws
end

