-- ==== Sys2Proof/Laws/Pixel.lean ====
section
/-! SUPPORT. The pixel primitives and everything drawn with them, pixel by pixel (20_memory.md R39 to R42;
41_glyph_blit.md R91; 42_text.md R100, R103; 43_gauge.md R115). -/

namespace Sys2Proof.Machine

open Sys2Proof

/-! Addresses. -/

theorem pixelByte_lt {x y : Nat} (hy : y < 64) : pixelByte x y < 1024 := by
  unfold pixelByte byteAddr page column; omega

/-- Two pixels in range are one pixel exactly when they share byte and bit, that is column (mod 128) and row. -/
theorem same_pixel_iff {x y x' y' : Nat} :
    (pixelByte x y = pixelByte x' y' ∧ bitOffset y = bitOffset y') ↔ (x % 128 = x' % 128 ∧ y = y') := by
  unfold pixelByte byteAddr page column bitOffset; omega

theorem getLsbD_bitMask {b j : Nat} (hj : j < 8) : (bitMask b).getLsbD j = decide (b = j) := by
  simp [bitMask, hj, eq_comm]

/-! The read-modify-write of one pixel. -/

theorem pixGet_of_le {fb : List Host.Cell} {x y : Nat} (hy : 64 ≤ y) : pixGet fb x y = false := by
  simp [pixGet, rowInRange, show ¬ y < 64 by omega]

theorem pixModify_of_le {fb : List Host.Cell} {x y : Nat} {f : Byte → Byte → Byte} (hy : 64 ≤ y) :
    pixModify fb x y f = fb := by
  simp [pixModify, rowInRange, show ¬ y < 64 by omega]

theorem fbByte_pixModify (fb : List Host.Cell) (x y a : Nat) (f : Byte → Byte → Byte) :
    fbByte (pixModify fb x y f) a =
      if pixelByte x y = a ∧ y < 64 then f (fbByte fb a) (bitMask (bitOffset y)) else fbByte fb a := by
  by_cases hy : y < 64
  · simp only [pixModify, rowInRange, hy, decide_true, if_true, fbByte_fbWrite, pixelByte_lt hy, and_true]
    by_cases h : pixelByte x y = a <;> simp [h]
  · simp [pixModify_of_le (Nat.not_lt.1 hy), hy]

theorem pixModify_wf {fb : List Host.Cell} (h : fbWf fb = true) (x y : Nat) (f : Byte → Byte → Byte) :
    fbWf (pixModify fb x y f) = true := by
  unfold pixModify; split
  · exact fbWrite_wf h _ _
  · exact h

/-- What a pixel modification does to every pixel, from what `f` does to a bit. -/
theorem pixGet_pixModify (fb : List Host.Cell) (x y x' y' : Nat) (f : Byte → Byte → Byte) (g : Bool → Bool)
    (hf : ∀ v b j, j < 8 → (f v (bitMask b)).getLsbD j = if b = j then g (v.getLsbD j) else v.getLsbD j) :
    pixGet (pixModify fb x y f) x' y' =
      if y < 64 ∧ x % 128 = x' % 128 ∧ y = y' then g (pixGet fb x' y') else pixGet fb x' y' := by
  by_cases hy' : y' < 64
  case neg =>
    rw [pixGet_of_le (Nat.not_lt.1 hy'), pixGet_of_le (Nat.not_lt.1 hy'), if_neg]
    omega
  have hb : bitOffset y' < 8 := by unfold bitOffset; omega
  simp only [pixGet, rowInRange, hy', decide_true, Bool.true_and, fbByte_pixModify]
  by_cases hc : x % 128 = x' % 128 ∧ y = y'
  · obtain ⟨h1, h2⟩ := same_pixel_iff.2 hc
    rw [if_pos ⟨h1, hc.2 ▸ hy'⟩, hf _ _ _ hb, if_pos h2, if_pos ⟨hc.2 ▸ hy', hc⟩]
  · rw [if_neg (c := y < 64 ∧ x % 128 = x' % 128 ∧ y = y') (fun h => hc h.2)]
    by_cases h1 : pixelByte x y = pixelByte x' y' ∧ y < 64
    · have h2 : ¬ bitOffset y = bitOffset y' := fun h => hc (same_pixel_iff.1 ⟨h1.1, h⟩)
      rw [if_pos h1, hf _ _ _ hb, if_neg h2]
    · rw [if_neg h1]

/-- `PixSet` (R40). -/
theorem pixGet_pixSet (fb : List Host.Cell) (x y x' y' : Nat) :
    pixGet (pixSet fb x y) x' y' = if y < 64 ∧ x % 128 = x' % 128 ∧ y = y' then true else pixGet fb x' y' :=
  pixGet_pixModify fb x y x' y' _ (fun _ => true) fun v b j hj => by
    simp only [BitVec.getLsbD_or, getLsbD_bitMask hj]; by_cases h : b = j <;> simp [h]

/-- `PixClr` (R41). -/
theorem pixGet_pixClr (fb : List Host.Cell) (x y x' y' : Nat) :
    pixGet (pixClr fb x y) x' y' = if y < 64 ∧ x % 128 = x' % 128 ∧ y = y' then false else pixGet fb x' y' :=
  pixGet_pixModify fb x y x' y' _ (fun _ => false) fun v b j hj => by
    simp only [BitVec.getLsbD_and, BitVec.getLsbD_not, hj, decide_true, Bool.true_and, getLsbD_bitMask hj]
    by_cases h : b = j <;> simp [h]

/-- `PixTgl` (R42). -/
theorem pixGet_pixTgl (fb : List Host.Cell) (x y x' y' : Nat) :
    pixGet (pixTgl fb x y) x' y' =
      if y < 64 ∧ x % 128 = x' % 128 ∧ y = y' then !pixGet fb x' y' else pixGet fb x' y' :=
  pixGet_pixModify fb x y x' y' _ (fun v => !v) fun v b j hj => by
    simp only [BitVec.getLsbD_xor, getLsbD_bitMask hj]; by_cases h : b = j <;> simp [h]

theorem pixGet_pixPut (fb : List Host.Cell) (x y x' y' : Nat) (v : Bool) :
    pixGet (pixPut fb x y v) x' y' = if y < 64 ∧ x % 128 = x' % 128 ∧ y = y' then v else pixGet fb x' y' := by
  cases v
  · exact pixGet_pixClr fb x y x' y'
  · exact pixGet_pixSet fb x y x' y'

theorem pixSet_wf {fb : List Host.Cell} (h : fbWf fb = true) (x y : Nat) : fbWf (pixSet fb x y) = true :=
  pixModify_wf h x y _

theorem pixClr_wf {fb : List Host.Cell} (h : fbWf fb = true) (x y : Nat) : fbWf (pixClr fb x y) = true :=
  pixModify_wf h x y _

theorem pixTgl_wf {fb : List Host.Cell} (h : fbWf fb = true) (x y : Nat) : fbWf (pixTgl fb x y) = true :=
  pixModify_wf h x y _

theorem pixPut_wf {fb : List Host.Cell} (h : fbWf fb = true) (x y : Nat) (v : Bool) :
    fbWf (pixPut fb x y v) = true := by
  cases v
  · exact pixClr_wf h x y
  · exact pixSet_wf h x y

/-- A pixel is bit `y mod 8` of byte `128 (y div 8) + x mod 128`, and every bit of every byte is a pixel
(20_memory.md R48). -/
theorem fbByte_getLsbD {fb : List Host.Cell} {p c b : Nat} (hp : p < 8) (hc : c < 128) (hb : b < 8) :
    (fbByte fb (byteAddr p c)).getLsbD b = pixGet fb c (8 * p + b) := by
  have hy : 8 * p + b < 64 := by omega
  have h1 : pixelByte c (8 * p + b) = byteAddr p c := by unfold pixelByte byteAddr page column; omega
  have h2 : bitOffset (8 * p + b) = b := by unfold bitOffset; omega
  simp [pixGet, rowInRange, hy, h1, h2]

/-- Two canonical Framebuffers that show the same 8192 pixels are the same. -/
theorem fb_ext_pixel {fb fb' : List Host.Cell} (h : fbWf fb = true) (h' : fbWf fb' = true)
    (heq : ∀ c y, c < 128 → y < 64 → pixGet fb c y = pixGet fb' c y) : fb = fb' := by
  refine fb_ext h h' fun a => ?_
  by_cases ha : a < 1024
  · refine BitVec.eq_of_getLsbD_eq fun b hb => ?_
    have hsplit : a = byteAddr (a / 128) (a % 128) := by unfold byteAddr; omega
    have hp : a / 128 < 8 := by omega
    have hc : a % 128 < 128 := by omega
    rw [hsplit, fbByte_getLsbD hp hc hb, fbByte_getLsbD hp hc hb]
    exact heq _ _ hc (by omega)
  · rw [fbByte_of_size_le h (Nat.not_lt.1 ha), fbByte_of_size_le h' (Nat.not_lt.1 ha)]

/-! The loop. -/

theorem forUp_zero {α : Type} (f : Nat → α → α) (a : α) : forUp 0 f a = a := rfl

theorem forUp_succ {α : Type} (n : Nat) (f : Nat → α → α) (a : α) : forUp (n + 1) f a = f n (forUp n f a) :=
  rfl

/-- The induction of the loop, once: what holds before it and is carried from `i` to `i + 1` holds after it. -/
theorem forUp_induct {α : Type} {n : Nat} {f : Nat → α → α} {a : α} (motive : Nat → α → Prop) (h0 : motive 0 a)
    (hs : ∀ i a, i < n → motive i a → motive (i + 1) (f i a)) : motive n (forUp n f a) := by
  induction n with
  | zero => rwa [forUp_zero]
  | succ n ih => rw [forUp_succ]; exact hs n _ (Nat.lt_succ_self n) (ih fun i a hi => hs i a (Nat.lt_succ_of_lt hi))

/-! Blit. -/

/-- How many columns `x'` lies to the right of `x`, round the edge (20_memory.md R33). -/
def columnsFrom (x x' : Nat) : Nat := (x' % 128 + 128 - x % 128) % 128

theorem columnsFrom_lt (x x' : Nat) : columnsFrom x x' < 128 := Nat.mod_lt _ (by decide)

theorem columnsFrom_eq_iff {x x' i : Nat} (hi : i < 128) : columnsFrom x x' = i ↔ (x + i) % 128 = x' % 128 := by
  unfold columnsFrom; omega

theorem pixGet_blitRow (P : Params) (fb : List Host.Cell) (x y : Nat) (code : Byte) (row x' y' : Nat) :
    pixGet (blitRow P fb x y code row) x' y' =
      if y' < 64 ∧ y' = y + row ∧ columnsFrom x x' < 8 then glyphBit P code row (columnsFrom x x')
      else pixGet fb x' y' := by
  have key : ∀ n ≤ 8, pixGet (forUp n (fun col fb => pixPut fb (x + col) (y + row) (glyphBit P code row col)) fb) x' y' =
      if y' < 64 ∧ y' = y + row ∧ columnsFrom x x' < n then glyphBit P code row (columnsFrom x x')
      else pixGet fb x' y' := by
    intro n hn
    induction n with
    | zero => simp [forUp_zero]
    | succ n ih =>
      have hc := columnsFrom_eq_iff (x := x) (x' := x') (show n < 128 by omega)
      simp only [forUp_succ, pixGet_pixPut, ih (by omega)]
      by_cases h : columnsFrom x x' = n
      · have h1 := hc.1 h
        by_cases h2 : y' < 64 ∧ y' = y + row
        · rw [if_pos ⟨by omega, h1, h2.2.symm⟩, if_pos ⟨h2.1, h2.2, by omega⟩, h]
        · rw [if_neg (by omega), if_neg (by omega), if_neg (by omega)]
      · have h1 : ¬ (x + n) % 128 = x' % 128 := fun h' => h (hc.2 h')
        rw [if_neg (fun h' => h1 h'.2.1)]
        by_cases h2 : y' < 64 ∧ y' = y + row ∧ columnsFrom x x' < n
        · rw [if_pos h2, if_pos ⟨h2.1, h2.2.1, by omega⟩]
        · rw [if_neg h2, if_neg (by omega)]
  exact key 8 (Nat.le_refl 8)

/-- `Blit` (41_glyph_blit.md R91): the cell's pixels are the glyph's, every other pixel keeps its value. -/
theorem pixGet_blit (P : Params) (fb : List Host.Cell) (x y : Nat) (code : Byte) (x' y' : Nat) :
    pixGet (blit P fb x y code) x' y' =
      if y' < 64 ∧ y ≤ y' ∧ y' < y + 16 ∧ columnsFrom x x' < 8 then glyphBit P code (y' - y) (columnsFrom x x')
      else pixGet fb x' y' := by
  have key : ∀ n, pixGet (forUp n (fun row fb => blitRow P fb x y code row) fb) x' y' =
      if y' < 64 ∧ y ≤ y' ∧ y' < y + n ∧ columnsFrom x x' < 8 then glyphBit P code (y' - y) (columnsFrom x x')
      else pixGet fb x' y' := by
    intro n
    induction n with
    | zero => rw [if_neg (by omega), forUp_zero]
    | succ n ih =>
      simp only [forUp_succ, pixGet_blitRow, ih]
      by_cases h : y' < 64 ∧ y' = y + n ∧ columnsFrom x x' < 8
      · rw [if_pos h, if_pos ⟨h.1, by omega, by omega, h.2.2⟩, h.2.1, Nat.add_sub_cancel_left]
      · rw [if_neg h]
        by_cases h2 : y' < 64 ∧ y ≤ y' ∧ y' < y + n ∧ columnsFrom x x' < 8
        · rw [if_pos h2, if_pos ⟨h2.1, h2.2.1, by omega, h2.2.2.2⟩]
        · rw [if_neg h2, if_neg (by omega)]
  exact key 16

theorem blit_wf (P : Params) {fb : List Host.Cell} (h : fbWf fb = true) (x y : Nat) (code : Byte) :
    fbWf (blit P fb x y code) = true :=
  forUp_induct (fun _ fb => fbWf fb = true) h fun _ _ _ h =>
    forUp_induct (fun _ fb => fbWf fb = true) h fun _ _ _ h => pixPut_wf h _ _ _

/-! A run of characters. -/

/-- A pixel in no cell of the run keeps its value (42_text.md R100). -/
theorem pixGet_drawRun_other (P : Params) (y x' y' : Nat) (text : List Byte) :
    ∀ (x : Nat) (fb : List Host.Cell),
      (y' < 64 → y ≤ y' → y' < y + 16 → ∀ k, k < text.length → 8 ≤ columnsFrom (x + 8 * k) x') →
      pixGet (drawRun P y x text fb) x' y' = pixGet fb x' y' := by
  induction text with
  | nil => intro x fb _; rfl
  | cons code text ih =>
    intro x fb h
    simp only [drawRun]
    rw [ih (x + 8) _ fun h1 h2 h3 k hk => ?_, pixGet_blit, if_neg]
    · rintro ⟨h1, h2, h3, h4⟩
      have := h h1 h2 h3 0 (by simp)
      simp only [Nat.mul_zero, Nat.add_zero] at this; omega
    · have := h h1 h2 h3 (k + 1) (by simpa using hk)
      rwa [show x + 8 * (k + 1) = x + 8 + 8 * k by omega] at this

/-- In the cell of character `k` the run leaves the glyph of `k`, if no later character lands on that cell
(42_text.md R100 c). -/
theorem pixGet_drawRun_cell (P : Params) (y row col : Nat) (hrow : row < 16) (hcol : col < 8) (hy : y + 15 < 64)
    (text : List Byte) :
    ∀ (x : Nat) (fb : List Host.Cell) (k : Nat) (hk : k < text.length),
      (∀ k', k < k' → k' < text.length → (k' - k) % 16 ≠ 0) →
      pixGet (drawRun P y x text fb) (x + 8 * k + col) (y + row) = glyphBit P text[k] row col := by
  induction text with
  | nil => intro x fb k hk; cases hk
  | cons code text ih =>
    intro x fb k hk hlast
    simp only [drawRun]
    cases k with
    | zero =>
      rw [pixGet_drawRun_other]
      · have hc : columnsFrom x (x + col) = col := (columnsFrom_eq_iff (by omega)).2 rfl
        simp only [Nat.mul_zero, Nat.add_zero, List.getElem_cons_zero]
        rw [pixGet_blit, hc, if_pos ⟨by omega, by omega, by omega, hcol⟩, Nat.add_sub_cancel_left]
      · intro _ _ _ k' hk'
        have := hlast (k' + 1) (by omega) (by simpa using hk')
        unfold columnsFrom; omega
    | succ k =>
      have := ih (x + 8) (blit P fb x y code) k (by simpa using hk) fun k' h1 h2 => by
        have := hlast (k' + 1) (by omega) (by simpa using h2)
        rwa [Nat.add_sub_add_right] at this
      rw [show x + 8 * (k + 1) + col = x + 8 + 8 * k + col by omega, this]
      simp

theorem drawRun_wf (P : Params) (y : Nat) (text : List Byte) :
    ∀ (x : Nat) (fb : List Host.Cell), fbWf fb = true → fbWf (drawRun P y x text fb) = true := by
  induction text with
  | nil => intro x fb h; exact h
  | cons code text ih => intro x fb h; exact ih _ _ (blit_wf P h x y code)

/-! The Text Grid. -/

/-- The cells of a grid load lie one after the other from `t` on; every other cell keeps its byte (42_text.md R102). -/
theorem read_loadCells (cells : List Byte) : ∀ (t : Nat) (tg : List Host.Cell) (a : Nat), t + cells.length ≤ 64 →
    Memory.read a (loadCells t cells tg) =
      if t ≤ a ∧ a < t + cells.length then some (cells.getD (a - t) 0#8) else Memory.read a tg := by
  induction cells with
  | nil => intro t tg a _; rw [if_neg (by simp only [List.length_nil]; omega)]; rfl
  | cons code cells ih =>
    intro t tg a h
    rw [List.length_cons] at h ⊢
    rw [loadCells, ih (t + 1) _ a (by omega), read_tgWrite]
    by_cases h1 : t = a
    · subst h1
      rw [if_neg (by omega), if_pos ⟨rfl, by omega⟩, if_pos (by omega), Nat.sub_self, List.getD_cons_zero]
    · rw [if_neg (fun h' : t = a ∧ t < 64 => h1 h'.1)]
      by_cases h2 : t + 1 ≤ a ∧ a < t + 1 + cells.length
      · rw [if_pos h2, if_pos (by omega), show a - t = a - (t + 1) + 1 by omega, List.getD_cons_succ]
      · rw [if_neg h2, if_neg (by omega)]

/-- After TGLOAD no cell is a free draw (42_text.md R102). -/
theorem tgCell_loadCells (draw : Nat) {cells : List Byte} (h : cells.length = 64) (tg : List Host.Cell) {c : Nat}
    (hc : c < 64) : tgCell draw (loadCells 0 cells tg) c = cells.getD c 0#8 := by
  rw [tgCell, read_loadCells _ _ _ _ (by omega), if_pos (by omega), Option.getD_some, Nat.sub_zero]

theorem loadCells_wf (cells : List Byte) : ∀ (t : Nat) {tg : List Host.Cell}, tgWf tg = true →
    tgWf (loadCells t cells tg) = true := by
  induction cells with
  | nil => intro t tg h; exact h
  | cons code cells ih => intro t tg h; exact ih (t + 1) (tgWrite_wf h t code)

/-- DRAWGRID writes every pixel: that of cell (r, c) in row and column of its glyph (42_text.md R103 a). -/
theorem pixGet_renderGrid (P : Params) (codes : Nat → Byte) (fb : List Host.Cell) (x' y' : Nat) :
    pixGet (renderGrid P codes fb) x' y' =
      (rowInRange y' && glyphBit P (codes (cellAddr (y' / 16) (x' % 128 / 8))) (y' % 16) (x' % 8)) := by
  have row : ∀ r, ∀ n ≤ 16, ∀ fb : List Host.Cell,
      pixGet (forUp n (fun c fb => blit P fb (8 * c) (16 * r) (codes (cellAddr r c))) fb) x' y' =
      if y' < 64 ∧ y' / 16 = r ∧ x' % 128 / 8 < n
      then glyphBit P (codes (cellAddr r (x' % 128 / 8))) (y' % 16) (x' % 8) else pixGet fb x' y' := by
    intro r n hn fb
    induction n with
    | zero => rw [if_neg (by omega), forUp_zero]
    | succ n ih =>
      simp only [forUp_succ, pixGet_blit, ih (by omega)]
      by_cases h : y' < 64 ∧ 16 * r ≤ y' ∧ y' < 16 * r + 16 ∧ columnsFrom (8 * n) x' < 8
      · have h1 : x' % 128 / 8 = n := by unfold columnsFrom at h; omega
        have h2 : columnsFrom (8 * n) x' = x' % 8 := by unfold columnsFrom at h ⊢; omega
        rw [if_pos h, if_pos ⟨h.1, by omega, by omega⟩, h1, h2, show y' - 16 * r = y' % 16 by omega]
      · have h1 : ¬ (y' < 64 ∧ y' / 16 = r ∧ x' % 128 / 8 = n) := by unfold columnsFrom at h; omega
        rw [if_neg h]
        by_cases h2 : y' < 64 ∧ y' / 16 = r ∧ x' % 128 / 8 < n
        · rw [if_pos h2, if_pos (by omega)]
        · rw [if_neg h2, if_neg (by omega)]
  have all : ∀ n ≤ 4, pixGet (forUp n (fun r fb =>
        forUp 16 (fun c fb => blit P fb (8 * c) (16 * r) (codes (cellAddr r c))) fb) fb) x' y' =
      if y' < 64 ∧ y' / 16 < n
      then glyphBit P (codes (cellAddr (y' / 16) (x' % 128 / 8))) (y' % 16) (x' % 8) else pixGet fb x' y' := by
    intro n hn
    induction n with
    | zero => rw [if_neg (by omega), forUp_zero]
    | succ n ih =>
      rw [forUp_succ, row n 16 (Nat.le_refl 16), ih (by omega)]
      by_cases h : y' < 64 ∧ y' / 16 = n
      · rw [if_pos ⟨h.1, h.2, by omega⟩, if_pos ⟨h.1, by omega⟩, h.2]
      · rw [if_neg (by omega)]
        by_cases h2 : y' < 64 ∧ y' / 16 < n
        · rw [if_pos h2, if_pos (by omega)]
        · rw [if_neg h2, if_neg (by omega)]
  unfold renderGrid
  rw [all 4 (Nat.le_refl 4)]
  by_cases hy : y' < 64
  · rw [if_pos ⟨hy, by omega⟩]; simp [rowInRange, hy]
  · rw [if_neg (fun h => hy h.1), pixGet_of_le (Nat.not_lt.1 hy)]; simp [rowInRange, hy]

theorem renderGrid_wf (P : Params) (codes : Nat → Byte) {fb : List Host.Cell} (h : fbWf fb = true) :
    fbWf (renderGrid P codes fb) = true :=
  forUp_induct (fun _ fb => fbWf fb = true) h fun _ _ _ h =>
    forUp_induct (fun _ fb => fbWf fb = true) h fun _ _ _ h => blit_wf P h _ _ _

/-! The gauge. -/

theorem pixGet_toggleColumn (fb : List Host.Cell) (x y height x' y' : Nat) :
    pixGet (toggleColumn fb x y height) x' y' =
      if y' < 64 ∧ x % 128 = x' % 128 ∧ y ≤ y' ∧ y' < y + height then !pixGet fb x' y' else pixGet fb x' y' := by
  unfold toggleColumn
  induction height with
  | zero => rw [if_neg (by omega), forUp_zero]
  | succ n ih =>
    simp only [forUp_succ, pixGet_pixTgl, ih]
    by_cases h : y' < 64 ∧ x % 128 = x' % 128 ∧ y + n = y'
    · rw [if_pos (by omega), if_neg (by omega), if_pos (by omega)]
    · rw [if_neg (by omega)]
      by_cases h2 : y' < 64 ∧ x % 128 = x' % 128 ∧ y ≤ y' ∧ y' < y + n
      · rw [if_pos h2, if_pos (by omega)]
      · rw [if_neg h2, if_neg (by omega)]

theorem pixGet_edgeColumn (fb : List Host.Cell) (x y height x' y' : Nat) :
    pixGet (edgeColumn fb x y height) x' y' =
      if y' < 64 ∧ x % 128 = x' % 128 ∧ y ≤ y' ∧ y' < y + height then true else pixGet fb x' y' := by
  unfold edgeColumn
  induction height with
  | zero => rw [if_neg (by omega), forUp_zero]
  | succ n ih =>
    simp only [forUp_succ, pixGet_pixSet, ih]
    by_cases h : y' < 64 ∧ x % 128 = x' % 128 ∧ y + n = y'
    · rw [if_pos (by omega), if_pos (by omega)]
    · rw [if_neg (by omega)]
      by_cases h2 : y' < 64 ∧ x % 128 = x' % 128 ∧ y ≤ y' ∧ y' < y + n
      · rw [if_pos h2, if_pos (by omega)]
      · rw [if_neg h2, if_neg (by omega)]

theorem pixGet_borderColumn (fb : List Host.Cell) (x y height x' y' : Nat) :
    pixGet (borderColumn fb x y height) x' y' =
      if y' < 64 ∧ x % 128 = x' % 128 ∧ (y' = y ∨ y' = gaugeLastRow y height) then true else pixGet fb x' y' := by
  simp only [borderColumn, pixGet_pixSet]
  by_cases h1 : gaugeLastRow y height < 64 ∧ x % 128 = x' % 128 ∧ gaugeLastRow y height = y'
  · rw [if_pos h1, if_pos (by omega)]
  · rw [if_neg h1]
    by_cases h2 : y < 64 ∧ x % 128 = x' % 128 ∧ y = y'
    · rw [if_pos h2, if_pos (by omega)]
    · rw [if_neg h2, if_neg (by omega)]

/-- One visit of a gauge column to the pixel of row `y + r` (43_gauge.md R115): filled, unfilled border, unfilled middle. -/
def gaugeVisit (filled border v : Bool) : Bool := if filled then !v else border || v

/-- The bar as a pixel of column `x'` sees it: the visits of the columns `i` that fall on it, in ascending order. -/
theorem pixGet_gaugeBar (fb : List Host.Cell) (x y width height fill x' y' : Nat) (hh : 0 < height) :
    pixGet (gaugeBar fb x y width height fill) x' y' =
      if y' < 64 ∧ y ≤ y' ∧ y' < y + height then
        (if (x + width) % 128 = x' % 128 then true
         else forUp width (fun i v => if (x + i) % 128 = x' % 128 then
           gaugeVisit (decide (i < fill)) (decide (y' = y) || decide (y' = gaugeLastRow y height)) v else v)
           (pixGet fb x' y'))
      else pixGet fb x' y' := by
  have key : ∀ n, pixGet (forUp n (fun i fb => if i < fill then toggleColumn fb (x + i) y height
        else borderColumn fb (x + i) y height) fb) x' y' =
      if y' < 64 ∧ y ≤ y' ∧ y' < y + height then
        forUp n (fun i v => if (x + i) % 128 = x' % 128 then
          gaugeVisit (decide (i < fill)) (decide (y' = y) || decide (y' = gaugeLastRow y height)) v else v)
          (pixGet fb x' y')
      else pixGet fb x' y' := by
    intro n
    induction n with
    | zero => simp only [forUp_zero, ite_self]
    | succ n ih =>
      simp only [forUp_succ]
      by_cases hf : n < fill
      · simp only [hf, if_true, pixGet_toggleColumn, ih, gaugeVisit, decide_true]
        by_cases hin : y' < 64 ∧ y ≤ y' ∧ y' < y + height
        · simp only [hin, and_self, if_true, and_true, true_and]
        · rw [if_neg (by omega), if_neg hin, if_neg hin]
      · simp only [hf, if_false, pixGet_borderColumn, ih, gaugeVisit, decide_false, Bool.false_eq_true]
        by_cases hin : y' < 64 ∧ y ≤ y' ∧ y' < y + height
        · by_cases hc : (x + n) % 128 = x' % 128
          · by_cases hb : y' = y ∨ y' = gaugeLastRow y height
            · rw [if_pos ⟨hin.1, hc, hb⟩, if_pos hin, if_pos hc]
              rcases hb with hb | hb <;> simp [← hb]
            · rw [if_neg (fun h => hb h.2.2), if_pos hin, if_pos hin, if_pos hc]
              simp only [not_or] at hb
              simp [hb.1, hb.2]
          · rw [if_neg (fun h => hc h.2.1), if_pos hin, if_pos hin, if_neg hc]
        · rw [if_neg, if_neg hin, if_neg hin]
          unfold gaugeLastRow; omega
  rw [gaugeBar, pixGet_edgeColumn, key]
  by_cases hin : y' < 64 ∧ y ≤ y' ∧ y' < y + height
  · simp only [hin, and_self, if_true, and_true, true_and]
  · rw [if_neg (by omega), if_neg hin, if_neg hin]

theorem gaugeBar_wf {fb : List Host.Cell} (h : fbWf fb = true) (x y width height fill : Nat) :
    fbWf (gaugeBar fb x y width height fill) = true := by
  refine forUp_induct (fun _ fb => fbWf fb = true) ?_ fun _ _ _ h => pixSet_wf h _ _
  refine forUp_induct (fun _ fb => fbWf fb = true) h fun i fb _ h => ?_
  split
  · exact forUp_induct (fun _ fb => fbWf fb = true) h fun _ _ _ h => pixTgl_wf h _ _
  · exact pixSet_wf (pixSet_wf h _ _) _ _

/-! Bytes outside what is drawn keep their value. -/

theorem fbByte_pixModify_other {fb : List Host.Cell} {x y a : Nat} {f : Byte → Byte → Byte}
    (h : y < 64 → pixelByte x y ≠ a) : fbByte (pixModify fb x y f) a = fbByte fb a := by
  rw [fbByte_pixModify, if_neg fun h' => h h'.2 h'.1]

theorem fbByte_pixPut_other {fb : List Host.Cell} {x y a : Nat} (v : Bool) (h : y < 64 → pixelByte x y ≠ a) :
    fbByte (pixPut fb x y v) a = fbByte fb a := by
  unfold pixPut pixSet pixClr
  split <;> exact fbByte_pixModify_other h

/-- Bytes that hold no pixel of the cell (41_glyph_blit.md R91). -/
theorem fbByte_blit_other (P : Params) (fb : List Host.Cell) (x y : Nat) (code : Byte) (a : Nat)
    (h : ∀ row col, row < 16 → col < 8 → y + row < 64 → pixelByte (x + col) (y + row) ≠ a) :
    fbByte (blit P fb x y code) a = fbByte fb a := by
  refine forUp_induct (fun _ fb' => fbByte fb' a = fbByte fb a) rfl fun row fb' hrow ih => ?_
  refine forUp_induct (fun _ fb'' => fbByte fb'' a = fbByte fb a) ih fun col fb'' hcol ih' => ?_
  rw [fbByte_pixPut_other _ (h row col hrow hcol), ih']

/-- Bytes that hold no pixel of any cell of the run (42_text.md R100). -/
theorem fbByte_drawRun_other (P : Params) (y a : Nat) (text : List Byte) :
    ∀ (x : Nat) (fb : List Host.Cell),
      (∀ k row col, k < text.length → row < 16 → col < 8 → y + row < 64 →
        pixelByte (x + 8 * k + col) (y + row) ≠ a) →
      fbByte (drawRun P y x text fb) a = fbByte fb a := by
  induction text with
  | nil => intro x fb _; rfl
  | cons code text ih =>
    intro x fb h
    rw [drawRun, ih, fbByte_blit_other]
    · exact fun row col => h 0 row col (by simp)
    · intro k row col hk
      have := h (k + 1) row col (by simpa using hk)
      rwa [show x + 8 * (k + 1) = x + 8 + 8 * k by omega] at this

theorem fbByte_renderGrid_other (P : Params) (codes : Nat → Byte) (fb : List Host.Cell) {a : Nat} (ha : 1024 ≤ a) :
    fbByte (renderGrid P codes fb) a = fbByte fb a := by
  refine forUp_induct (fun _ fb' => fbByte fb' a = fbByte fb a) rfl fun r fb' _ ih => ?_
  refine forUp_induct (fun _ fb'' => fbByte fb'' a = fbByte fb a) ih fun c fb'' _ ih' => ?_
  rw [fbByte_blit_other, ih']
  intro row col _ _ hy
  have := pixelByte_lt (x := 8 * c + col) hy
  omega

/-- Bytes that hold no pixel of the bar's columns and rows, the edge included (43_gauge.md R115). -/
theorem fbByte_gaugeBar_other (fb : List Host.Cell) (x y width height fill a : Nat) (hh : 0 < height)
    (h : ∀ i r, i ≤ width → r < height → y + r < 64 → pixelByte (x + i) (y + r) ≠ a) :
    fbByte (gaugeBar fb x y width height fill) a = fbByte fb a := by
  refine forUp_induct (fun _ fb' => fbByte fb' a = fbByte fb a) ?_ fun r fb' hr ih => ?_
  case refine_2 => rw [pixSet, fbByte_pixModify_other (h width r (Nat.le_refl _) hr), ih]
  refine forUp_induct (fun _ fb' => fbByte fb' a = fbByte fb a) rfl fun i fb' hi ih => ?_
  split
  · refine forUp_induct (fun _ fb'' => fbByte fb'' a = fbByte fb a) ih fun r fb'' hr ih' => ?_
    rw [pixTgl, fbByte_pixModify_other (h i r (Nat.le_of_lt hi) hr), ih']
  · have h0 := h i 0 (Nat.le_of_lt hi) hh
    rw [Nat.add_zero] at h0
    have h1 := h i (height - 1) (Nat.le_of_lt hi) (by omega)
    rw [show y + (height - 1) = gaugeLastRow y height by unfold gaugeLastRow; omega] at h1
    rw [borderColumn, pixSet, fbByte_pixModify_other h1, pixSet, fbByte_pixModify_other h0, ih]

/-! The frame write. -/

theorem frameBeats_length (fb : List Host.Cell) : (frameBeats fb).length = 1024 := by
  simp [frameBeats]

/-- Beat number `n` of a frame write (44_frame_write.md R126). -/
theorem frameBeats_getElem? (fb : List Host.Cell) {n : Nat} (hn : n < 1024) :
    (frameBeats fb)[n]? = some (frameBeat fb (n / 512) (n / 64 % 8) (n % 64)) := by
  have index : (List.range 2).flatMap (fun h => (List.range 8).flatMap fun p =>
      (List.range 64).map fun hc => (h, p, hc)) =
      (List.range 1024).map fun n => (n / 512, n / 64 % 8, n % 64) := by decide +kernel
  have hf : frameBeats fb = ((List.range 2).flatMap fun h => (List.range 8).flatMap fun p =>
      (List.range 64).map fun hc => (h, p, hc)).map fun i => frameBeat fb i.1 i.2.1 i.2.2 := by
    simp [frameBeats, List.map_flatMap, Function.comp_def]
  rw [hf, index]
  simp [hn]

end Sys2Proof.Machine
end

