-- ==== Sys2Proof/Laws/Step.lean ====
section
/-! SUPPORT. What each command, taking a byte and a step can do, said once. -/

namespace Sys2Proof.Machine

open Sys2Proof

/-! One inversion per command whose meaning has a check. -/

theorem rowInRange_iff {y : Nat} : rowInRange y = true ↔ y < 64 := by simp [rowInRange]

theorem execSetpx_cases {x y : Byte} {s t : State} (h : execSetpx x y s = .next t) :
    (y.toNat < 64 ∧ t = { s with fb := pixSet s.fb x.toNat y.toNat }) ∨
      (64 ≤ y.toNat ∧ t = raiseFault causeYrange opSetpx s) := by
  unfold execSetpx at h; split at h
  case isTrue hy => cases h; exact .inl ⟨rowInRange_iff.1 hy, rfl⟩
  case isFalse hy => cases h; exact .inr ⟨Nat.not_lt.1 fun h => hy (rowInRange_iff.2 h), rfl⟩

theorem execClrpx_cases {x y : Byte} {s t : State} (h : execClrpx x y s = .next t) :
    (y.toNat < 64 ∧ t = { s with fb := pixClr s.fb x.toNat y.toNat }) ∨
      (64 ≤ y.toNat ∧ t = raiseFault causeYrange opClrpx s) := by
  unfold execClrpx at h; split at h
  case isTrue hy => cases h; exact .inl ⟨rowInRange_iff.1 hy, rfl⟩
  case isFalse hy => cases h; exact .inr ⟨Nat.not_lt.1 fun h => hy (rowInRange_iff.2 h), rfl⟩

theorem execGetpx_cases {x y : Byte} {s t : State} (h : execGetpx x y s = .next t) :
    (y.toNat < 64 ∧ t = emitRsp (pixelAnswer s.fb x.toNat y.toNat) s) ∨
      (64 ≤ y.toNat ∧ t = raiseFault causeYrange opGetpx s) := by
  unfold execGetpx at h; split at h
  case isTrue hy => cases h; exact .inl ⟨rowInRange_iff.1 hy, rfl⟩
  case isFalse hy => cases h; exact .inr ⟨Nat.not_lt.1 fun h => hy (rowInRange_iff.2 h), rfl⟩

theorem drawcharWith_cases {P : Params} {x y code : Byte} {s t : State} (h : drawcharWith P x y code s = .next t) :
    (y.toNat + 15 < 64 ∧ t = { s with fb := blit P s.fb x.toNat y.toNat code }) ∨
      (64 ≤ y.toNat + 15 ∧ t = raiseFault causeYrange opDrawchar s) := by
  unfold drawcharWith at h; split at h
  case isTrue hy => cases h; exact .inl ⟨rowInRange_iff.1 hy, rfl⟩
  case isFalse hy => cases h; exact .inr ⟨Nat.not_lt.1 fun h => hy (rowInRange_iff.2 h), rfl⟩

theorem drawtextWith_cases {P : Params} {x y : Byte} {text : List Byte} {s t : State}
    (h : drawtextWith P x y text s = .next t) :
    text.length ≤ 255 ∧
      (((text = [] ∨ y.toNat + 15 < 64) ∧ t = { s with fb := drawRun P y.toNat x.toNat text s.fb }) ∨
        (text ≠ [] ∧ 64 ≤ y.toNat + 15 ∧ t = raiseFault causeYrange opDrawtext s)) := by
  unfold drawtextWith at h; split at h
  case isFalse => cases h
  case isTrue hl =>
    refine ⟨hl, ?_⟩
    split at h
    case isTrue hy =>
      cases h
      simp only [Bool.or_eq_true, List.isEmpty_iff, rowInRange_iff, glyphLastRow] at hy
      exact .inl ⟨hy, rfl⟩
    case isFalse hy =>
      cases h
      simp only [Bool.or_eq_true, List.isEmpty_iff, rowInRange_iff, glyphLastRow, not_or] at hy
      exact .inr ⟨hy.1, Nat.not_lt.1 hy.2, rfl⟩

theorem execTgset_cases {col row code : Byte} {s t : State} (h : execTgset col row code s = .next t) :
    (col.toNat < 16 ∧ row.toNat < 4 ∧ t = { s with tg := tgWrite s.tg (cellAddr row.toNat col.toNat) code }) ∨
      (¬ (col.toNat < 16 ∧ row.toNat < 4) ∧ t = raiseFault causeBadarg opTgset s) := by
  unfold execTgset at h; split at h
  case isTrue hc => cases h; exact .inl ⟨hc.1, hc.2, rfl⟩
  case isFalse hc => cases h; exact .inr ⟨hc, rfl⟩

theorem execTgload_cases {cells : List Byte} {s t : State} (h : execTgload cells s = .next t) :
    cells.length = 64 ∧ t = { s with tg := loadCells 0 cells s.tg } := by
  unfold execTgload at h; split at h
  case isTrue hc => cases h; exact ⟨hc, rfl⟩
  case isFalse hc => cases h

theorem execDrawgauge_cases {x y width height percent : Byte} {s t : State}
    (h : execDrawgauge x y width height percent s = .next t) :
    ((height.toNat = 0 ∨ 100 < percent.toNat) ∧ t = raiseFault causeBadarg opDrawgauge s) ∨
      (0 < height.toNat ∧ percent.toNat ≤ 100 ∧
        ((y.toNat + height.toNat ≤ 64 ∧ t = { s with
            fb := gaugeBar s.fb x.toNat y.toNat width.toNat height.toNat (gaugeFill percent.toNat width.toNat) }) ∨
          (64 < y.toNat + height.toNat ∧ t = raiseFault causeYrange opDrawgauge s))) := by
  unfold execDrawgauge at h; split at h
  case isTrue hb => cases h; exact .inl ⟨hb, rfl⟩
  case isFalse hb =>
    have h1 : 0 < height.toNat := by omega
    refine .inr ⟨h1, by omega, ?_⟩
    split at h
    case isTrue hy => cases h; exact .inl ⟨by have := rowInRange_iff.1 hy; unfold gaugeLastRow at this; omega, rfl⟩
    case isFalse hy =>
      cases h
      refine .inr ⟨?_, rfl⟩
      have : ¬ gaugeLastRow y.toNat height.toNat < 64 := fun h => hy (rowInRange_iff.2 h)
      unfold gaugeLastRow at this; omega

/-- Everything a command can do, by the part of the state it changes: take a fault, draw, fill the Text Grid, answer,
write the frame. -/
theorem exec_effect {i : Instr} {s t : State} (h : exec i s = .next t) :
    (∃ cause, cause ≠ causeNone ∧ t = raiseFault cause (opcodeOf i) s) ∨
      (∃ fb draw, t = { s with fb := fb, draw := draw } ∧ (fbWf s.fb = true → fbWf fb = true)) ∨
      (∃ tg, t = { s with tg := tg } ∧ (tgWf s.tg = true → tgWf tg = true)) ∨
      (∃ b, (b = 0#8 ∨ b = 1#8) ∧ t = emitRsp b s) ∨
      (∃ beats, t = emitOut beats s) := by
  cases i with
  | clear => cases h; exact .inr (.inl ⟨[], s.draw, rfl, fun _ => rfl⟩)
  | setpx x y =>
    rcases execSetpx_cases h with ⟨_, rfl⟩ | ⟨_, rfl⟩
    · exact .inr (.inl ⟨_, s.draw, rfl, fun h => pixSet_wf h _ _⟩)
    · exact .inl ⟨causeYrange, by decide, rfl⟩
  | clrpx x y =>
    rcases execClrpx_cases h with ⟨_, rfl⟩ | ⟨_, rfl⟩
    · exact .inr (.inl ⟨_, s.draw, rfl, fun h => pixClr_wf h _ _⟩)
    · exact .inl ⟨causeYrange, by decide, rfl⟩
  | getpx x y =>
    rcases execGetpx_cases h with ⟨_, rfl⟩ | ⟨_, rfl⟩
    · exact .inr (.inr (.inr (.inl ⟨_, by unfold pixelAnswer; split <;> simp, rfl⟩)))
    · exact .inl ⟨causeYrange, by decide, rfl⟩
  | drawchar x y code =>
    rcases drawcharWith_cases h with ⟨_, rfl⟩ | ⟨_, rfl⟩
    · exact .inr (.inl ⟨_, s.draw, rfl, fun h => blit_wf _ h _ _ _⟩)
    · exact .inl ⟨causeYrange, by decide, rfl⟩
  | drawtext x y text =>
    rcases (drawtextWith_cases h).2 with ⟨_, rfl⟩ | ⟨_, _, rfl⟩
    · exact .inr (.inl ⟨_, s.draw, rfl, fun h => drawRun_wf _ _ _ _ _ h⟩)
    · exact .inl ⟨causeYrange, by decide, rfl⟩
  | tgset col row code =>
    rcases execTgset_cases h with ⟨_, _, rfl⟩ | ⟨_, rfl⟩
    · exact .inr (.inr (.inl ⟨_, rfl, fun h => tgWrite_wf h _ _⟩))
    · exact .inl ⟨causeBadarg, by decide, rfl⟩
  | tgload cells =>
    obtain ⟨_, rfl⟩ := execTgload_cases h
    exact .inr (.inr (.inl ⟨_, rfl, fun h => loadCells_wf _ _ h⟩))
  | drawgrid => cases h; exact .inr (.inl ⟨_, _, rfl, fun h => renderGrid_wf _ _ h⟩)
  | drawgauge x y width height percent =>
    rcases execDrawgauge_cases h with ⟨_, rfl⟩ | ⟨_, _, ⟨_, rfl⟩ | ⟨_, rfl⟩⟩
    · exact .inl ⟨causeBadarg, by decide, rfl⟩
    · exact .inr (.inl ⟨_, s.draw, rfl, fun h => gaugeBar_wf h _ _ _ _ _⟩)
    · exact .inl ⟨causeYrange, by decide, rfl⟩
  | flush => cases h; exact .inr (.inr (.inr (.inr ⟨_, rfl⟩)))

/-- No command looks at what the host has yet to present, nor changes it (10_state.md R17, R18). -/
theorem exec_next_with_cmd {i : Instr} {s t : State} (h : exec i s = .next t) (cmd : List HostEvent) :
    exec i { s with cmd := cmd } = .next { t with cmd := cmd } := by
  have raise : ∀ (cause : BitVec 2) (op : Byte), raiseFault cause op { s with cmd := cmd } =
      { raiseFault cause op s with cmd := cmd } := by
    intro cause op
    by_cases hr : s.Running
    · rw [raiseFault_of_running hr, raiseFault_of_running (s := { s with cmd := cmd }) hr]
    · rw [raiseFault_of_halted hr, raiseFault_of_halted (s := { s with cmd := cmd }) hr]
  cases i with
  | clear => cases h; rfl
  | setpx x y => simp only [exec, execSetpx, raise] at h ⊢; split at h <;> rename_i c <;> cases h <;> simp [c]
  | clrpx x y => simp only [exec, execClrpx, raise] at h ⊢; split at h <;> rename_i c <;> cases h <;> simp [c]
  | getpx x y => simp only [exec, execGetpx, raise] at h ⊢; split at h <;> rename_i c <;> cases h <;> simp [c, emitRsp]
  | drawchar x y code => simp only [exec, execDrawchar, drawcharWith, raise] at h ⊢; split at h <;> rename_i c <;> cases h <;> simp [c]
  | drawtext x y text =>
    simp only [exec, execDrawtext, drawtextWith, raise] at h ⊢
    split at h <;> rename_i c
    · split at h <;> rename_i c' <;> cases h <;> simp [c, c']
    · cases h
  | tgset col row code => simp only [exec, execTgset, raise] at h ⊢; split at h <;> rename_i c <;> cases h <;> simp [c]
  | tgload cells =>
    simp only [exec, execTgload] at h ⊢
    split at h <;> rename_i c
    · cases h; simp [c]
    · cases h
  | drawgrid => cases h; rfl
  | drawgauge x y width height percent =>
    simp only [exec, execDrawgauge, raise] at h ⊢
    split at h <;> rename_i c
    · cases h; simp [c]
    · split at h <;> rename_i c' <;> cases h <;> simp [c, c']
  | flush => cases h; rfl

/-! Taking a byte, and a step. -/

theorem takeByte_of_halted {b : Byte} {s : State} (h : ¬ s.Running) : takeByte b s = .next s := by
  simp [takeByte, State.halted, h]

theorem takeByte_of_running {b : Byte} {s : State} (h : s.Running) :
    takeByte b s =
      match acceptByte s.latch b with
      | .waiting latch => .next { s with latch := latch }
      | .illegal op => .next (raiseFault causeIllegal op { s with latch := [] })
      | .complete i => exec i { s with latch := [] }
      | .impossible => .fault .impossibleLatch := by
  exact if_neg (by simp [(halted_eq_false_iff s).2 h])

/-- Everything a byte can do to a block whose latch holds a beginning of a command (30_encoding.md R60, R61, R66;
60_exceptions.md R139). -/
theorem takeByte_cases {s : State} (h : decode s.latch = .incomplete) (b : Byte) :
    (¬ s.Running ∧ takeByte b s = .next s) ∨
      (s.Running ∧ decode (s.latch ++ [b]) = .incomplete ∧ takeByte b s = .next { s with latch := s.latch ++ [b] }) ∨
      (s.Running ∧ s.latch = [] ∧ b ∉ opcodes ∧
        takeByte b s = .next { s with latch := [], fcause := causeIllegal, fop := b }) ∨
      (∃ i, s.Running ∧ decode (s.latch ++ [b]) = .command i [] ∧ takeByte b s = exec i { s with latch := [] }) := by
  by_cases hr : s.Running
  case neg => exact .inl ⟨hr, takeByte_of_halted hr⟩
  rw [takeByte_of_running hr]
  rcases acceptByte_cases h b with ⟨h1, h2⟩ | ⟨i, h1, h2⟩ | ⟨h1, h2, h3⟩
  · exact .inr (.inl ⟨hr, h2, by rw [h1]⟩)
  · exact .inr (.inr (.inr ⟨i, hr, h2, by rw [h1]⟩))
  · refine .inr (.inr (.inl ⟨hr, h2, h3, ?_⟩))
    rw [h1]
    exact congrArg Host.Outcome.next (raiseFault_of_running (s := { s with latch := [] }) hr)

theorem step_idle {s : State} (h : s.cmd = []) : step s = .next s := by simp [step, h]

theorem step_byte {s : State} {b : Byte} {rest : List HostEvent} (h : s.cmd = .byte b :: rest) :
    step s = takeByte b { s with cmd := rest } := by simp [step, h]

theorem step_reset {s : State} {rest : List HostEvent} (h : s.cmd = .reset :: rest) :
    step s = .next (resetEvent { s with cmd := rest }) := by simp [step, h]

/-- Everything a step that answers a next state has done. -/
theorem step_next_cases {s t : State} (h : step s = .next t) :
    (s.cmd = [] ∧ t = s) ∨
      (∃ b rest, s.cmd = .byte b :: rest ∧ takeByte b { s with cmd := rest } = .next t) ∨
      (∃ rest, s.cmd = .reset :: rest ∧ t = resetEvent { s with cmd := rest }) ∨
      (∃ b rest u, s.cmd = .byteThenReset b :: rest ∧ takeByte b { s with cmd := rest } = .next u ∧
        t = cutShort { s with cmd := rest } u) := by
  unfold step at h
  split at h
  case h_1 hc => cases h; exact .inl ⟨hc, rfl⟩
  case h_2 b rest hc => exact .inr (.inl ⟨b, rest, hc, h⟩)
  case h_3 rest hc => cases h; exact .inr (.inr (.inl ⟨rest, hc, rfl⟩))
  case h_4 b rest hc =>
    split at h
    case h_1 u hu => cases h; exact .inr (.inr (.inr ⟨b, rest, u, hc, hu, rfl⟩))
    case h_2 => cases h
    case h_3 => cases h

/-! Runs. -/

theorem run_zero (s : State) : Sys2Proof.core.run 0 s = .next s := rfl

theorem run_succ_of_next {s t : State} (h : step s = .next t) (k : Nat) :
    Sys2Proof.core.run (k + 1) s = Sys2Proof.core.run k t := by
  have h' : Sys2Proof.core.step s = .next t := h
  simp only [Host.Core.run, h']

theorem run_succ_of_fault {s : State} {f : Fault} (h : step s = .fault f) (k : Nat) :
    Sys2Proof.core.run (k + 1) s = .fault f := by
  have h' : Sys2Proof.core.step s = .fault f := h
  simp only [Host.Core.run, h']

theorem run_succ_of_refused {s : State} {r : Refusal} (h : step s = .refused r) (k : Nat) :
    Sys2Proof.core.run (k + 1) s = .refused r := by
  have h' : Sys2Proof.core.step s = .refused r := h
  simp only [Host.Core.run, h']

/-- A run that goes on is a run and then a run. -/
theorem run_add_of_next {m : Nat} (n : Nat) :
    ∀ {s t : State}, Sys2Proof.core.run m s = .next t → Sys2Proof.core.run (m + n) s = Sys2Proof.core.run n t := by
  induction m with
  | zero => intro s t h; cases h; rw [Nat.zero_add]
  | succ m ih =>
    intro s t h
    rw [Nat.succ_add]
    cases hs : step s with
    | next u => rw [run_succ_of_next hs] at h ⊢; exact ih h
    | fault f => rw [run_succ_of_fault hs] at h; cases h
    | refused r => rw [run_succ_of_refused hs] at h; cases h

end Sys2Proof.Machine
end

