-- ==== Sys2Proof/Tests/Slice0.lean ====
section
/-! SUPPORT. Tests, with the source of every expected value, and for every statement with hypotheses a witness that
they can be met. The fonts are the test fonts of 95_test_vectors.md section 0. -/

namespace Sys2Proof.Tests

open Sys2Proof Sys2Proof.Machine

/-! ## States and fonts -/

/-- Font `TF2` of 95_test_vectors.md: every row of glyph `code` is the byte `code`. -/
def tf2 (base : GlyphBitBase) : Params := ⟨fun a => a.extractLsb' 4 8, base⟩

/-- A running block with something in every part of its state, at whose `CMD` the host has presented `cmd`. -/
def sample (cmd : List HostEvent) : State :=
  { State.reset with
    fb := [(133, 0x04#8), (1023, 0x80#8)], tg := [(17, 0x41#8)], rsp := [0x01#8], out := [⟨1#1, 7#3, 63#6, 0x80#8⟩]
    cmd := cmd, draw := 3 }

/-- The same, halted by `SETPX 0, 64`. -/
def sampleHalted (cmd : List HostEvent) : State := { sample cmd with fcause := 3#2, fop := 0x02#8 }

/-- The bytes of columns `cs` of page `p`, all `v`, as cells. -/
def row (p : Nat) (cs : List Nat) (v : Byte) : List Host.Cell := cs.map fun c => (128 * p + c, v)

/-- The next state of an outcome, the sample where there is none. -/
def nextOf (r : Result) : State :=
  match r with
  | .next t => t
  | .fault _ => sample []
  | .refused _ => sample []

/-! ## WellFormed: each check refuses an ill-formed term (30_encoding.md R64, R65) -/

theorem test_wellFormed_drawtext : (Instr.drawtext 0#8 0#8 (List.replicate 256 0x41#8)).WellFormed = false := by decide +kernel
theorem test_wellFormed_tgload : (Instr.tgload (List.replicate 63 0x20#8)).WellFormed = false := by decide
theorem test_wellFormed_longest : (Instr.drawtext 0#8 0#8 (List.replicate 255 0x41#8)).WellFormed = true ∧
    (Instr.tgload (List.replicate 64 0x20#8)).WellFormed = true := by decide +kernel

/-! ## Decoding: the bytes of 30_encoding.md section 8 -/

theorem test_decode_clear : decode [0x01#8] = .command .clear [] := by decide
theorem test_decode_setpx : decode [0x02#8, 0x05#8, 0x0A#8] = .command (.setpx 5#8 10#8) [] := by decide
theorem test_decode_clrpx : decode [0x03#8, 0xC8#8, 0x3F#8] = .command (.clrpx 200#8 63#8) [] := by decide
theorem test_decode_getpx : decode [0x04#8, 0x85#8, 0x0A#8] = .command (.getpx 133#8 10#8) [] := by decide
theorem test_decode_drawchar :
    decode [0x10#8, 0x08#8, 0x10#8, 0x41#8] = .command (.drawchar 8#8 16#8 0x41#8) [] := by decide
theorem test_decode_drawtext : decode [0x11#8, 0x78#8, 0x00#8, 0x02#8, 0x41#8, 0x42#8] =
    .command (.drawtext 120#8 0#8 (stringCodes "AB")) [] := by decide
theorem test_decode_drawtext_empty :
    decode [0x11#8, 0x00#8, 0x00#8, 0x00#8] = .command (.drawtext 0#8 0#8 []) [] := by decide
theorem test_decode_tgset : decode [0x12#8, 0x0F#8, 0x03#8, 0x30#8] = .command (.tgset 15#8 3#8 0x30#8) [] := by decide
theorem test_decode_tgload : decode (0x13#8 :: List.replicate 64 0x20#8) =
    .command (.tgload (List.replicate 64 0x20#8)) [] := by decide +kernel
theorem test_decode_drawgrid : decode [0x14#8] = .command .drawgrid [] := by decide
theorem test_decode_drawgauge : decode [0x20#8, 0x0A#8, 0x30#8, 0x64#8, 0x08#8, 0x32#8] =
    .command (.drawgauge 10#8 48#8 100#8 8#8 50#8) [] := by decide
theorem test_decode_flush : decode [0x30#8] = .command .flush [] := by decide
/-- 30_encoding.md R66. -/
theorem test_decode_illegal : decode [0x00#8] = .illegal 0x00#8 [] ∧ decode [0x05#8] = .illegal 0x05#8 [] ∧
    decode [0x15#8] = .illegal 0x15#8 [] ∧ decode [0x31#8, 0x01#8] = .illegal 0x31#8 [0x01#8] := by decide
/-- 95_test_vectors.md V3.17: `02 05` is a command cut short. -/
theorem test_decode_incomplete : decode [0x02#8, 0x05#8] = .incomplete := by decide
/-- SETPX 5, 10 as a table word: byte 0 in bits 7..0, byte 1 in bits 15..8, byte 2 in bits 23..16. -/
theorem test_decodeTableWord : decodeTableWord 24 0x0A0502 = some (.setpx 5#8 10#8) := by decide +kernel
/-- 30_encoding.md section 8. -/
theorem test_encode_drawtext : encode (.drawtext 120#8 0#8 [0x41#8, 0x42#8]) =
    [0x11#8, 0x78#8, 0x00#8, 0x02#8, 0x41#8, 0x42#8] := by decide

/-! ## Commands: at most two one-step tests each, expected values from 95_test_vectors.md -/

/-- V3.15: CLEAR after SETPX 5, 10. -/
theorem test_clear : (nextOf (exec .clear (sample []))).fb = [] := by decide
/-- V3.4: SETPX 255, 63 wraps to `FB[7][127] = 0x80`. -/
theorem test_setpx : (nextOf (exec (.setpx 255#8 63#8) State.reset)).fb = [(1023, 0x80#8)] := by decide
/-- V3.11: SETPX 0, 64. -/
theorem test_setpx_yrange : (nextOf (exec (.setpx 0#8 64#8) State.reset)).faultPins = (3#2, 0x02#8, true) := by decide
/-- V3.6: CLRPX 5, 8 where `FB[1][5] = 0x03`. -/
theorem test_clrpx : (nextOf (exec (.clrpx 5#8 8#8) { State.reset with fb := [(133, 0x03#8)] })).fb =
    [(133, 0x02#8)] := by decide
/-- V3.8: CLRPX on a clear pixel. -/
theorem test_clrpx_clear : exec (.clrpx 5#8 10#8) State.reset = .next State.reset := by rfl
/-- V3.10: GETPX 133, 10 where `FB[1][5] = 0x04`. -/
theorem test_getpx : (nextOf (exec (.getpx 133#8 10#8) (sample []))).rsp = [0x01#8, 0x01#8] := by decide
/-- V3.10: GETPX 5, 11. -/
theorem test_getpx_clear : (nextOf (exec (.getpx 5#8 11#8) (sample []))).rsp = [0x01#8, 0x00#8] := by decide
/-- V4.3, `B = 8`: DRAWCHAR 124, 48, 0xFF wraps round the right edge. -/
theorem test_drawchar : (nextOf (drawcharWith (tf2 .reference) 124#8 48#8 0xFF#8 State.reset)).fb =
    row 6 [0, 1, 2, 3, 125, 126, 127] 0xFF#8 ++ row 7 [0, 1, 2, 3, 125, 126, 127] 0xFF#8 := by decide +kernel
/-- V4.6, `B = 7`: DRAWCHAR 255, 48, 0xAA. -/
theorem test_drawchar_corrected : (nextOf (drawcharWith (tf2 .corrected) 255#8 48#8 0xAA#8 State.reset)).fb =
    row 6 [1, 3, 5, 127] 0xFF#8 ++ row 7 [1, 3, 5, 127] 0xFF#8 := by decide +kernel
/-- V5.1, `B = 8`: DRAWTEXT 0, 0, [0xFF, 0x00, 0x81]. -/
theorem test_drawtext :
    (nextOf (drawtextWith (tf2 .reference) 0#8 0#8 [0xFF#8, 0x00#8, 0x81#8] State.reset)).fb =
    row 0 [1, 2, 3, 4, 5, 6, 7, 17] 0xFF#8 ++ row 1 [1, 2, 3, 4, 5, 6, 7, 17] 0xFF#8 := by decide +kernel
/-- V5.6: an empty text tests nothing. -/
theorem test_drawtext_empty : exec (.drawtext 4#8 200#8 []) State.reset = .next State.reset := by rfl
/-- V5.9: TGSET 15, 3, 0x30. -/
theorem test_tgset : (nextOf (exec (.tgset 15#8 3#8 0x30#8) State.reset)).tg = [(63, 0x30#8)] := by decide
/-- V5.7: TGSET 16, 0, 5. -/
theorem test_tgset_badarg : (nextOf (exec (.tgset 16#8 0#8 5#8) State.reset)).faultPins = (2#2, 0x12#8, true) := by
  decide
/-- V5.15: cell 16 of the command goes to `TG[1][0]`, linear address 16 (42_text.md R102). -/
theorem test_tgload : (nextOf (exec (.tgload (List.replicate 16 0x00#8 ++ [0xFF#8] ++ List.replicate 47 0x00#8))
    (sample []))).tg = (List.range 64).map fun t => (t, if t = 16 then 0xFF#8 else 0x00#8) := by decide +kernel
/-- V5.11, `B = 8`: cell (col 1, row 1) is at pixel (8, 16); its first and last pixel set, and their neighbours. -/
theorem test_drawgrid :
    ∀ q ∈ [(9, 16, true), (15, 31, true), (8, 16, false), (16, 16, false), (9, 15, false), (9, 32, false)],
      pixGet (nextOf (drawgridWith (tf2 .reference) { sample [] with
        tg := (List.range 64).map fun t => (t, if t = 17 then 0xFF#8 else 0x00#8) })).fb q.1 q.2.1 = q.2.2 := by
  simp only [nextOf, drawgridWith, pixGet_renderGrid]
  decide +kernel
/-- V6.13: DRAWGAUGE 10, 3, 10, 6, 33 spans two pages. -/
theorem test_drawgauge : (nextOf (exec (.drawgauge 10#8 3#8 10#8 6#8 33#8) State.reset)).fb =
    row 0 [10, 11, 12] 0xF8#8 ++ row 0 [13, 14, 15, 16, 17, 18, 19] 0x08#8 ++ row 0 [20] 0xF8#8 ++
      row 1 [10, 11, 12, 13, 14, 15, 16, 17, 18, 19, 20] 0x01#8 := by decide +kernel
/-- V6.12: DRAWGAUGE 0, 200, 4, 0, 50: BADARG is tested first. -/
theorem test_drawgauge_badarg : (nextOf (exec (.drawgauge 0#8 200#8 4#8 0#8 50#8) State.reset)).faultPins =
    (2#2, 0x20#8, true) := by decide
/-- V7.2: beats 576 and 63 of a FLUSH where pixels (64, 8) and (63, 7) are set. -/
theorem test_flush : (frameBeats [(63, 0x80#8), (192, 0x01#8)])[576]? = some ⟨1#1, 1#3, 0#6, 0x01#8⟩ ∧
    (frameBeats [(63, 0x80#8), (192, 0x01#8)])[63]? = some ⟨0#1, 0#3, 63#6, 0x80#8⟩ := by decide +kernel
/-- 44_frame_write.md R126: 1024 beats, and the Framebuffer is not changed. -/
theorem test_flush_frame : (nextOf (exec .flush (sample []))).out.length = 1025 ∧
    (nextOf (exec .flush (sample []))).fb = (sample []).fb := by decide +kernel

/-! ## Steps -/

/-- The table word of SETPX 5, 10 runs as the first command after reset. -/
theorem test_withFetchWord : nextOf (step (State.reset.withFetchWord 24 0x0A0502)) =
    { State.reset with fb := [(133, 0x04#8)] } := by decide +kernel
/-- V8.1: an illegal opcode byte, 0x00, faults as it is taken. -/
theorem test_illegal : (nextOf (step (sample [.byte 0x00#8]))).faultPins = (1#2, 0x00#8, true) := by decide
/-- 60_exceptions.md R139: a halted block discards a byte. -/
theorem test_halted : (nextOf (step (sampleHalted [.byte 0x01#8]))).fb = (sample []).fb := by decide
/-- 70_reset_and_hazards.md R155: reset is the way back. -/
theorem test_reset : (nextOf (step (sampleHalted [.reset]))).faultPins = (0#2, 0x00#8, false) ∧
    (nextOf (step (sampleHalted [.reset]))).fb = [] := by decide
/-- 44_frame_write.md R128: the strobes of two beats on either side of a change of half. -/
theorem test_strobes : strobes (some 0#1) [⟨0#1, 7#3, 63#6, 0x11#8⟩, ⟨1#1, 0#3, 0#6, 0x22#8⟩] =
    [.selectColumn 63#6, .writeByte 0x11#8, .selectHalf 1#1, .selectPage 0#3, .selectColumn 0#6, .writeByte 0x22#8] := by
  decide
/-- 30_encoding.md R67. -/
theorem test_assembly : assembly (.drawtext 120#8 0#8 (stringCodes "AB")) = "DRAWTEXT 120, 0, [65, 66]" := by
  decide +kernel

/-! ## Witnesses: every hypothesis of every statement can be met, clause by clause, at the boundaries -/

theorem witness_sample_running : (sample []).Running ∧ ¬ (sampleHalted []).Running ∧ (sample []).latch = [] := by decide

theorem witness_inv : (sample [.byteThenReset 0x30#8]).Inv ∧ (sampleHalted []).Inv :=
  ⟨⟨by decide, by decide, by decide, by decide, by decide⟩, ⟨by decide, by decide, by decide, by decide, by decide⟩⟩

theorem witness_DecodeOfEncodeGivesTheCommandBack :
    (Instr.drawtext 1#8 2#8 (List.replicate 255 0x41#8)).WellFormed = true := by decide +kernel

theorem witness_DecodedBytesAreAnEncoding :
    decode [0x11#8, 0x04#8, 0xC8#8, 0x01#8, 0x41#8, 0x30#8] = .command (.drawtext 4#8 200#8 [0x41#8]) [0x30#8] := by
  decide

theorem witness_BeginningOfACommandIsIncomplete :
    (Instr.drawtext 1#8 2#8 [0x41#8]).WellFormed = true ∧ 4 < (encode (.drawtext 1#8 2#8 [0x41#8])).length := by decide

/-- Every end of every range of R66, and a legal opcode on either side. -/
theorem witness_IllegalOpcodeFaultsWhenTaken :
    (∀ op ∈ [0x00#8, 0x05#8, 0x0F#8, 0x15#8, 0x1F#8, 0x21#8, 0x2F#8, 0x31#8, 0xFF#8], op ∉ opcodes) ∧
    (∀ op ∈ [0x01#8, 0x04#8, 0x10#8, 0x14#8, 0x20#8, 0x30#8], op ∈ opcodes) ∧
    (sample [.byte 0x05#8]).Running ∧ (sample [.byte 0x05#8]).latch = [] ∧
    (sample [.byte 0x05#8]).cmd = .byte 0x05#8 :: [] := by decide

theorem witness_PixelAddressFields : (63 : Nat) < 64 ∧ (0 : Nat) < 64 := by decide

/-- A pixel in range, another byte, the pixel beside it and the pixel below it. -/
theorem witness_PixelPrimitives : (63 : Nat) < 64 ∧ 1022 ≠ pixelByte 127 63 ∧
    (126 % 128 ≠ 127 % 128 ∨ 63 ≠ 63) ∧ (127 % 128 ≠ 127 % 128 ∨ 62 ≠ 63) := by decide

theorem witness_GlyphBitTest : (15 : Nat) < 16 ∧ (7 : Nat) < 8 ∧ 0 < 7 ∧ (tf2 .reference).glyphBitBase = .reference ∧
    (tf2 .corrected).glyphBitBase = .corrected := by decide

/-- SETPX, CLRPX, GETPX: the last row in range, the first out of range, and another byte. -/
theorem witness_pixelCommands : (63#8).toNat < 64 ∧ 64 ≤ (64#8).toNat ∧
    0 ≠ pixelByte (127#8).toNat (63#8).toNat := by decide

/-- DRAWCHAR: the lowest cell, the first below it, a pixel and a byte outside the cell. -/
theorem witness_DrawcharBlitsOneGlyph : (48#8).toNat ≤ 48 ∧ 48 < (49#8).toNat ∧
    (∀ row col, row < 16 → col < 8 → ¬ (((124#8).toNat + col) % 128 = 4 % 128 ∧ (48#8).toNat + row = 63)) ∧
    (∀ row col, row < 16 → col < 8 → pixelByte ((124#8).toNat + col) ((48#8).toNat + row) ≠ 772) := by
  refine ⟨by decide, by decide, ?_, ?_⟩ <;> intro row col hrow hcol <;> simp only [BitVec.reduceToNat]
  · omega
  · unfold pixelByte byteAddr page column; omega

/-- DRAWTEXT: the longest text; an empty text below every range; the last and the first character of 17, of which the
17th lands on the first; a pixel and a byte outside the cells of two characters. -/
theorem witness_DrawtextBlitsTheRun :
    (List.replicate 255 0x41#8).length ≤ 255 ∧ (48#8).toNat ≤ 48 ∧ [0x41#8] ≠ [] ∧ 48 < (49#8).toNat ∧
    (∀ k', 1 < k' → k' < 17 → (k' - 1) % 16 ≠ 0) ∧ ¬ (∀ k', 0 < k' → k' < 17 → (k' - 0) % 16 ≠ 0) ∧
    (∀ k row col, k < [0x41#8, 0x42#8].length → row < 16 → col < 8 →
      ¬ (((120#8).toNat + 8 * k + col) % 128 = 8 % 128 ∧ (48#8).toNat + row = 63)) ∧
    (∀ k row col, k < [0x41#8, 0x42#8].length → row < 16 → col < 8 →
      pixelByte ((120#8).toNat + 8 * k + col) ((48#8).toNat + row) ≠ 776) := by
  refine ⟨by decide +kernel, by decide, by decide, by decide, fun k' h1 h2 => by omega,
    fun h => absurd (h 16 (by decide) (by decide)) (by decide), ?_, ?_⟩ <;> intro k row col hk hrow hcol <;>
    simp only [BitVec.reduceToNat, List.length_cons, List.length_nil] at hk ⊢
  · omega
  · unfold pixelByte byteAddr page column; omega

theorem witness_TgsetWritesOneCell : ((15#8).toNat ≤ 15 ∧ (3#8).toNat ≤ 3) ∧ 15 < (16#8).toNat ∧ 3 < (4#8).toNat ∧
    0 ≠ 16 * (3#8).toNat + (15#8).toNat := by decide

theorem witness_TgloadWritesEveryCell : (List.replicate 64 0x20#8).length = 64 ∧ 63 < 64 ∧ 64 ≤ 64 := by decide

theorem witness_DrawgridBlitsTheGrid : (3 < 4 ∧ 15 < 16 ∧ 7 < 8) ∧ Memory.read 17 (sample []).tg = some 0x41#8 ∧
    1024 ≤ 1024 := by decide

/-- DRAWGAUGE: the last row in range, the first out of range, both BADARG tests, and a byte outside the bar. -/
theorem witness_DrawgaugeDrawsTheBar :
    (0 < (4#8).toNat ∧ (100#8).toNat ≤ 100 ∧ (60#8).toNat + (4#8).toNat ≤ 64) ∧ 64 < (60#8).toNat + (5#8).toNat ∧
    (0#8).toNat = 0 ∧ 100 < (101#8).toNat ∧
    (∀ i r, i ≤ (2#8).toNat → r < (4#8).toNat → pixelByte ((126#8).toNat + i) ((60#8).toNat + r) ≠ 897) := by
  refine ⟨by decide, by decide, by decide, by decide, ?_⟩
  intro i r hi hr
  simp only [BitVec.reduceToNat] at *
  unfold pixelByte byteAddr page column
  omega

theorem witness_FlushWritesTheWholeFrame : (1023 : Nat) < 1024 := by decide

theorem witness_GaugeFillMapping : (100 : Nat) ≤ 100 ∧ (255 : Nat) ≤ 255 ∧ (99 : Nat) ≤ 100 := by decide

theorem witness_GaugeHollowAtZeroAndTogglesAtHundred : (127#8).toNat ≤ 127 ∧ 0 < (64#8).toNat ∧
    (0#8).toNat + (64#8).toNat ≤ 64 := by decide

theorem witness_ShorterTextLeavesTheTail : (48#8).toNat ≤ 48 ∧ [0x42#8].length ≤ (List.replicate 16 0x41#8).length ∧
    (List.replicate 16 0x41#8).length ≤ 16 := by decide

theorem witness_SecondCharacterLeavesNoTrace : fbWf (sample []).fb = true ∧ (48#8).toNat ≤ 48 := by decide

/-- Two states with different pictures and the same Text Grid, all 64 cells written. -/
theorem witness_DrawgridForgetsThePicture :
    fbWf (sample []).fb = true ∧ fbWf State.reset.fb = true ∧ (sample []).fb ≠ State.reset.fb ∧
    ∀ c, c < 64 → ∃ v, Memory.read c ((List.range 64).map fun t => (t, 0x20#8)) = some v := by
  refine ⟨by decide, by decide, by decide, fun c hc => ⟨0x20#8, ?_⟩⟩
  have h : ∀ c, c < 64 → Memory.read c ((List.range 64).map fun t => (t, 0x20#8)) = some 0x20#8 := by decide +kernel
  exact h c hc

theorem witness_FlushCarriesThePixels : 1 < 2 ∧ 7 < 8 ∧ 63 < 64 := by decide

/-- A stream that begins at column 0 and changes page only at column 0, across a change of half. -/
theorem witness_StrobeViewLosesNothing :
    (∀ b, ([⟨0#1, 7#3, 0#6, 1#8⟩, ⟨0#1, 7#3, 63#6, 2#8⟩, ⟨1#1, 0#3, 0#6, 3#8⟩] : List Beat).head? = some b →
      b.hc = 0#6) ∧
    (∀ (n : Nat) (a b : Beat),
      ([⟨0#1, 7#3, 0#6, 1#8⟩, ⟨0#1, 7#3, 63#6, 2#8⟩, ⟨1#1, 0#3, 0#6, 3#8⟩] : List Beat)[n]? = some a →
      ([⟨0#1, 7#3, 0#6, 1#8⟩, ⟨0#1, 7#3, 63#6, 2#8⟩, ⟨1#1, 0#3, 0#6, 3#8⟩] : List Beat)[n + 1]? = some b →
      b.hc ≠ 0#6 → b.p = a.p) := by
  refine ⟨fun b h => by cases h; rfl, fun n a b ha hb hne => ?_⟩
  match n with
  | 0 => cases ha; cases hb; rfl
  | 1 => cases ha; cases hb; exact absurd rfl hne
  | n + 2 => cases hb

/-- A command of each cause and one that does not fault, in a running block. -/
theorem witness_FaultsAreAFunctionOfTheBytes : faultOf (.setpx 0#8 64#8) = 3#2 ∧ faultOf (.tgset 16#8 0#8 0#8) = 2#2 ∧
    faultOf (.setpx 0#8 63#8) = 0#2 ∧ (Instr.setpx 0#8 64#8).WellFormed = true ∧ (sample []).Running := by decide

/-- A command of each class that answers a next state, and one that faults. -/
theorem witness_WhoWritesWhat : drawsPixels .flush = false ∧ fillsGrid .clear = false ∧ faultOf .clear = 0#2 ∧
    ¬ (sampleHalted []).Running ∧ Instr.clear ≠ .flush ∧ exec .clear (sample []) = .next { sample [] with fb := [] } := by
  refine ⟨by decide, by decide, by decide, by decide, by decide, rfl⟩

theorem witness_HaltedBlockDiscardsBytes : ¬ (sampleHalted [.byte 0x01#8, .reset]).Running ∧
    (sampleHalted [.byte 0x01#8, .reset]).cmd = [0x01#8].map HostEvent.byte ++ [.reset] := by decide

/-- A halted block with nothing, a byte, a reset and a byte with a reset presented. -/
theorem witness_OnlyResetLeavesTheHalt : ¬ (sampleHalted []).Running ∧ (sampleHalted []).cmd = [] ∧
    (sampleHalted [.byte 0x01#8]).cmd = .byte 0x01#8 :: [] ∧ (sampleHalted [.reset]).cmd = .reset :: [] ∧
    (sampleHalted [.byteThenReset 0x01#8]).cmd = .byteThenReset 0x01#8 :: [] ∧
    ∀ e ∈ (sampleHalted [.byte 0x01#8]).cmd, ∃ b, e = .byte b := by
  refine ⟨by decide, rfl, rfl, rfl, rfl, fun e he => ⟨0x01#8, List.mem_singleton.1 he⟩⟩

/-- Reset between bytes and during a FLUSH, in a state that meets the invariant (`witness_inv`). -/
theorem witness_ResetEventPutsEverythingBack : (sample [.reset]).cmd = .reset :: [] ∧
    (sample [.byteThenReset 0x30#8]).Running ∧ (sample [.byteThenReset 0x30#8]).latch = [] ∧
    (sample [.byteThenReset 0x30#8]).cmd = .byteThenReset 0x30#8 :: [] := by decide

theorem witness_BlockWaitsForTheHost : (sample []).cmd = [] ∧ (sample [.byte 0x02#8]).Running ∧
    (sample [.byte 0x02#8]).cmd = .byte 0x02#8 :: [] ∧ decode ((sample []).latch ++ [0x02#8]) = .incomplete := by decide

theorem witness_StepRunsTheDecodedCommand : (sample [.byte 0x30#8]).Running ∧
    (sample [.byte 0x30#8]).cmd = .byte 0x30#8 :: [] ∧
    decode ((sample [.byte 0x30#8]).latch ++ [0x30#8]) = .command .flush [] := by decide

theorem witness_CommandActsWhenItsLastByteIsTaken : (Instr.setpx 5#8 10#8).WellFormed = true ∧
    (sample [.byte 0x02#8, .byte 0x05#8, .byte 0x0A#8]).Running ∧
    (sample [.byte 0x02#8, .byte 0x05#8, .byte 0x0A#8]).latch = [] ∧
    (sample [.byte 0x02#8, .byte 0x05#8, .byte 0x0A#8]).cmd = (encode (.setpx 5#8 10#8)).map HostEvent.byte ++ [] ∧
    2 < (encode (.setpx 5#8 10#8)).length ∧ 0x05#8 ∉ opcodes ∧
    (sample [.byte 0x05#8]).cmd = .byte 0x05#8 :: [] := by decide

/-- Two commands of which the first faults. -/
theorem witness_BytesRefineCommands : (∀ i ∈ [Instr.setpx 0#8 64#8, .clear], i.WellFormed = true) ∧
    (sample ([0x02#8, 0x00#8, 0x40#8, 0x01#8].map HostEvent.byte)).latch = [] ∧
    (sample ([0x02#8, 0x00#8, 0x40#8, 0x01#8].map HostEvent.byte)).cmd =
      (encodeAll [Instr.setpx 0#8 64#8, .clear]).map HostEvent.byte ++ [] := by decide

theorem witness_WellFormedCommandsComplete : Instr.flush.WellFormed = true ∧
    (Instr.tgload []).WellFormed = false := by decide

/-- GETPX 5, 10 but for its last byte, which is next on `CMD`. -/
def sampleGetpx : State := { sample [.byte 0x0A#8] with latch := [0x04#8, 0x05#8] }

/-- A step that runs a command, from a state that meets the invariant. -/
theorem witness_EveryStepKeepsTheInvariant : sampleGetpx.Inv ∧
    step sampleGetpx = .next { sample [] with rsp := [0x01#8, 0x01#8] } :=
  ⟨⟨by decide, by decide, by decide, by decide, by decide⟩, rfl⟩

/-- Also for `EveryRunGoesOn`: states that meet the invariant, with a command in the latch, halted, and with a reset to
come. -/
theorem witness_LatchIsBounded : sampleGetpx.Inv ∧ (sampleHalted [.reset]).Inv ∧ sampleGetpx.latch.length = 2 :=
  ⟨⟨by decide, by decide, by decide, by decide, by decide⟩, ⟨by decide, by decide, by decide, by decide, by decide⟩,
    rfl⟩

/-- Also for `OutputHistoriesOnlyGrow`: a step that answers on `RSP`, after responses that were zero or one. -/
theorem witness_ResponsesAreZeroOrOne : (∀ b ∈ sampleGetpx.rsp, b = 0x00#8 ∨ b = 0x01#8) ∧
    step sampleGetpx = .next { sample [] with rsp := [0x01#8, 0x01#8] } := ⟨by decide, rfl⟩

theorem witness_SetThenQueryOverTheWire : (63#8).toNat < 64 ∧
    (sample ([0x02#8, 0x05#8, 0x3F#8, 0x04#8, 0x05#8, 0x3F#8].map HostEvent.byte)).Running ∧
    (sample ([0x02#8, 0x05#8, 0x3F#8, 0x04#8, 0x05#8, 0x3F#8].map HostEvent.byte)).latch = [] ∧
    (sample ([0x02#8, 0x05#8, 0x3F#8, 0x04#8, 0x05#8, 0x3F#8].map HostEvent.byte)).cmd =
      [0x02#8, 0x05#8, 0x3F#8, 0x04#8, 0x05#8, 0x3F#8].map HostEvent.byte ++ [] ∧
    (sample ([0x03#8, 0x05#8, 0x3F#8, 0x04#8, 0x05#8, 0x3F#8].map HostEvent.byte)).cmd =
      [0x03#8, 0x05#8, 0x3F#8, 0x04#8, 0x05#8, 0x3F#8].map HostEvent.byte ++ [] ∧
    (sample ([0x01#8, 0x04#8, 0x05#8, 0x3F#8].map HostEvent.byte)).cmd =
      [0x01#8, 0x04#8, 0x05#8, 0x3F#8].map HostEvent.byte ++ [] := by decide

end Sys2Proof.Tests
end

section
/-! PROOFS. The statements about the state of the block (10_state.md): the invariant, who writes which part, the bound of
the latch, the output histories, the reset state. -/

namespace Sys2Proof

/-! How many bytes of a command can have come without completing it, format by format (30_encoding.md R64, R65). -/

theorem decodeXY_incomplete_length {k : Byte → Byte → Instr} {bs : List Byte} (h : decodeXY k bs = .incomplete) :
    bs.length ≤ 1 := by
  match bs with
  | [] | [_] => simp
  | _ :: _ :: _ => cases h

theorem decode3_incomplete_length {k : Byte → Byte → Byte → Instr} {bs : List Byte}
    (h : decode3 k bs = .incomplete) : bs.length ≤ 2 := by
  match bs with
  | [] | [_] | [_, _] => simp
  | _ :: _ :: _ :: _ => cases h

theorem decodeGau_incomplete_length {bs : List Byte} (h : decodeGau bs = .incomplete) : bs.length ≤ 4 := by
  match bs with
  | [] | [_] | [_, _] | [_, _, _] | [_, _, _, _] => simp
  | _ :: _ :: _ :: _ :: _ :: _ => cases h

theorem decodeTxt_incomplete_length {bs : List Byte} (h : decodeTxt bs = .incomplete) : bs.length ≤ 257 := by
  match bs with
  | [] | [_] | [_, _] => simp
  | _ :: _ :: len :: text =>
    simp only [decodeTxt] at h
    split at h
    case isTrue => cases h
    case isFalse hlen =>
      have hbyte := len.isLt
      simp only [List.length_cons]
      omega

theorem decodeGrd_incomplete_length {bs : List Byte} (h : decodeGrd bs = .incomplete) : bs.length ≤ 63 := by
  unfold decodeGrd at h
  split at h
  case isTrue => cases h
  case isFalse hlen => omega

/-- The longest beginning is a DRAWTEXT of 255 characters that lacks its last one. -/
theorem decode_incomplete_length {bs : List Byte} (h : decode bs = .incomplete) : bs.length ≤ 258 := by
  cases bs with
  | nil => simp
  | cons op operands =>
    suffices operands.length ≤ 257 from Nat.succ_le_succ this
    by_cases hop : op ∈ opcodes
    case neg => rw [decode_illegal hop] at h; cases h
    simp only [opcodes, List.mem_cons, List.not_mem_nil, or_false] at hop
    rcases hop with rfl | rfl | rfl | rfl | rfl | rfl | rfl | rfl | rfl | rfl | rfl
    · cases h
    · exact (decodeXY_incomplete_length h).trans (by decide)
    · exact (decodeXY_incomplete_length h).trans (by decide)
    · exact (decodeXY_incomplete_length h).trans (by decide)
    · exact (decode3_incomplete_length h).trans (by decide)
    · exact decodeTxt_incomplete_length h
    · exact (decode3_incomplete_length h).trans (by decide)
    · exact (decodeGrd_incomplete_length h).trans (by decide)
    · cases h
    · exact (decodeGau_incomplete_length h).trans (by decide)
    · cases h

end Sys2Proof

namespace Sys2Proof.Machine

open Sys2Proof

/-! The invariant: what reset leaves meets it, and a command keeps it. -/

/-- A block at its reset values, whatever its histories and the host's bytes. -/
theorem inv_of_reset_values {s : State} (hfb : s.fb = []) (htg : s.tg = []) (hfop : s.fop = 0#8)
    (hlatch : s.latch = []) : s.Inv where
  fbCanonical := by rw [hfb]; exact fbWf_nil
  tgCanonical := by rw [htg]; exact tgWf_nil
  runningNoOpcode _ := hfop
  latchIncomplete := by rw [hlatch]; exact decode_nil
  haltedLatchEmpty _ := hlatch

/-- The invariant does not speak of what the host has yet to present. -/
theorem inv_with_cmd {s : State} (h : s.Inv) (cmd : List HostEvent) : ({ s with cmd := cmd } : State).Inv :=
  ⟨h.fbCanonical, h.tgCanonical, h.runningNoOpcode, h.latchIncomplete, h.haltedLatchEmpty⟩

/-- Emptying the latch, as the last byte of a command does (30_encoding.md R61). -/
theorem inv_with_latch_nil {s : State} (h : s.Inv) : ({ s with latch := [] } : State).Inv :=
  ⟨h.fbCanonical, h.tgCanonical, h.runningNoOpcode, decode_nil, fun _ => rfl⟩

/-- Entering a fault with an empty latch (60_exceptions.md R137). -/
theorem inv_with_fault {s : State} (h : s.Inv) (hlatch : s.latch = []) {cause : BitVec 2} (hcause : cause ≠ causeNone)
    (op : Byte) : ({ s with fcause := cause, fop := op } : State).Inv :=
  ⟨h.fbCanonical, h.tgCanonical, fun hrun => absurd hrun hcause, h.latchIncomplete, fun _ => hlatch⟩

/-- A command that runs, which it does with the latch empty, keeps the invariant. -/
theorem exec_keeps_inv {i : Instr} {s t : State} (h : s.Inv) (hrun : s.Running) (hlatch : s.latch = [])
    (hexec : exec i s = .next t) : t.Inv := by
  rcases exec_effect hexec with
    ⟨cause, hcause, rfl⟩ | ⟨fb, draw, rfl, hfb⟩ | ⟨tg, rfl, htg⟩ | ⟨b, _, rfl⟩ | ⟨beats, rfl⟩
  · rw [raiseFault_of_running hrun]
    exact inv_with_fault h hlatch hcause _
  · exact ⟨hfb h.fbCanonical, h.tgCanonical, h.runningNoOpcode, h.latchIncomplete, h.haltedLatchEmpty⟩
  · exact ⟨h.fbCanonical, htg h.tgCanonical, h.runningNoOpcode, h.latchIncomplete, h.haltedLatchEmpty⟩
  · exact ⟨h.fbCanonical, h.tgCanonical, h.runningNoOpcode, h.latchIncomplete, h.haltedLatchEmpty⟩
  · exact ⟨h.fbCanonical, h.tgCanonical, h.runningNoOpcode, h.latchIncomplete, h.haltedLatchEmpty⟩

/-- Taking a byte keeps the invariant: a halted block discards it, a running one keeps it in the latch, faults on it or
runs the command it ends. -/
theorem takeByte_keeps_inv {b : Byte} {s t : State} (h : s.Inv) (htake : takeByte b s = .next t) : t.Inv := by
  rcases takeByte_cases h.latchIncomplete b with
    ⟨_, heq⟩ | ⟨hrun, hdecode, heq⟩ | ⟨_, _, _, heq⟩ | ⟨i, hrun, _, heq⟩
  · cases heq.symm.trans htake
    exact h
  · cases heq.symm.trans htake
    exact ⟨h.fbCanonical, h.tgCanonical, h.runningNoOpcode, hdecode, fun hhalted => absurd hrun hhalted⟩
  · cases heq.symm.trans htake
    exact inv_with_fault (inv_with_latch_nil h) rfl (by decide) b
  · exact exec_keeps_inv (inv_with_latch_nil h) hrun rfl (heq.symm.trans htake)

/-- Settles O39, by what a step can have done: wait, take a byte, or reset. -/
theorem everyStepKeepsTheInvariant : Obligations.EveryStepKeepsTheInvariant := by
  intro s t h hstep
  rcases step_next_cases hstep with ⟨_, rfl⟩ | ⟨b, rest, _, htake⟩ | ⟨rest, _, rfl⟩ | ⟨b, rest, u, _, _, rfl⟩
  · exact h
  · exact takeByte_keeps_inv (inv_with_cmd h rest) htake
  · exact inv_of_reset_values rfl rfl rfl rfl
  · exact inv_of_reset_values rfl rfl rfl rfl

/-! Which command writes which part of the state. -/

/-- What a command does, by its class: it takes the fault of the fault table, or it writes the one part of the state that
its class may write (10_state.md R10, R12, R13, R18; 60_exceptions.md R136). -/
theorem exec_effect_of_class {i : Instr} {s t : State} (h : exec i s = .next t) :
    (faultOf i ≠ causeNone ∧ t = raiseFault (faultOf i) (opcodeOf i) s) ∨
      (drawsPixels i = true ∧ ∃ fb draw, t = { s with fb := fb, draw := draw }) ∨
      (fillsGrid i = true ∧ ∃ tg, t = { s with tg := tg }) ∨
      ((∃ x y, i = .getpx x y) ∧ ∃ b, t = emitRsp b s) ∨
      (i = .flush ∧ ∃ beats, t = emitOut beats s) := by
  have fault {cause : BitVec 2} (hcause : cause ≠ causeNone) (hi : faultOf i = cause)
      (ht : t = raiseFault cause (opcodeOf i) s) :
      faultOf i ≠ causeNone ∧ t = raiseFault (faultOf i) (opcodeOf i) s := by
    subst hi; exact ⟨hcause, ht⟩
  cases i with
  | clear => cases h; exact .inr (.inl ⟨rfl, [], s.draw, rfl⟩)
  | setpx x y =>
    rcases execSetpx_cases h with ⟨_, ht⟩ | ⟨hy, ht⟩
    · exact .inr (.inl ⟨rfl, _, s.draw, ht⟩)
    · exact .inl (fault (by decide) (if_pos hy) ht)
  | clrpx x y =>
    rcases execClrpx_cases h with ⟨_, ht⟩ | ⟨hy, ht⟩
    · exact .inr (.inl ⟨rfl, _, s.draw, ht⟩)
    · exact .inl (fault (by decide) (if_pos hy) ht)
  | getpx x y =>
    rcases execGetpx_cases h with ⟨_, ht⟩ | ⟨hy, ht⟩
    · exact .inr (.inr (.inr (.inl ⟨⟨x, y, rfl⟩, _, ht⟩)))
    · exact .inl (fault (by decide) (if_pos hy) ht)
  | drawchar x y code =>
    rcases drawcharWith_cases h with ⟨_, ht⟩ | ⟨hy, ht⟩
    · exact .inr (.inl ⟨rfl, _, s.draw, ht⟩)
    · exact .inl (fault (by decide) (if_pos (by omega)) ht)
  | drawtext x y text =>
    rcases (drawtextWith_cases h).2 with ⟨_, ht⟩ | ⟨htext, hy, ht⟩
    · exact .inr (.inl ⟨rfl, _, s.draw, ht⟩)
    · exact .inl (fault (by decide) (if_pos ⟨List.length_pos_iff.2 htext, by omega⟩) ht)
  | tgset col row code =>
    rcases execTgset_cases h with ⟨_, _, ht⟩ | ⟨hcell, ht⟩
    · exact .inr (.inr (.inl ⟨rfl, _, ht⟩))
    · exact .inl (fault (by decide) (if_pos (by omega)) ht)
  | tgload cells => exact .inr (.inr (.inl ⟨rfl, _, (execTgload_cases h).2⟩))
  | drawgrid => cases h; exact .inr (.inl ⟨rfl, _, _, rfl⟩)
  | drawgauge x y width height percent =>
    rcases execDrawgauge_cases h with ⟨hbad, ht⟩ | ⟨_, _, ⟨_, ht⟩ | ⟨hy, ht⟩⟩
    · exact .inl (fault (by decide) (if_pos hbad) ht)
    · exact .inr (.inl ⟨rfl, _, s.draw, ht⟩)
    · exact .inl (fault (by decide) ((if_neg (by omega)).trans (if_pos hy)) ht)
  | flush => cases h; exact .inr (.inr (.inr (.inr ⟨rfl, _, rfl⟩)))

/-- Settles O29, by the class of the command. -/
theorem whoWritesWhat : Obligations.WhoWritesWhat := by
  intro i s t h
  rcases exec_effect_of_class h with
    ⟨hfault, rfl⟩ | ⟨hdraws, fb, draw, rfl⟩ | ⟨hfills, tg, rfl⟩ | ⟨⟨x, y, rfl⟩, b, rfl⟩ | ⟨rfl, beats, rfl⟩
  · refine ⟨by simp, by simp, by simp, by simp, ?_, by simp, by simp⟩
    rintro (hnone | hhalted)
    · exact absurd hnone hfault
    · rw [raiseFault_of_halted hhalted]; exact ⟨rfl, rfl⟩
  · simp [hdraws]
  · simp [hfills]
  · simp
  · simp

/-- Settles O42. -/
theorem latchIsBounded : Obligations.LatchIsBounded := fun _ h => decode_incomplete_length h.latchIncomplete

/-! The output histories. -/

theorem exec_histories_grow {i : Instr} {s t : State} (h : exec i s = .next t) : s.rsp <+: t.rsp ∧ s.out <+: t.out := by
  rcases exec_effect h with ⟨_, _, rfl⟩ | ⟨_, _, rfl, _⟩ | ⟨_, rfl, _⟩ | ⟨b, _, rfl⟩ | ⟨beats, rfl⟩
  · simp
  · exact ⟨List.prefix_rfl, List.prefix_rfl⟩
  · exact ⟨List.prefix_rfl, List.prefix_rfl⟩
  · exact ⟨List.prefix_append _ _, List.prefix_rfl⟩
  · exact ⟨List.prefix_rfl, List.prefix_append _ _⟩

/-- Everything a byte that is taken without a stop has done, whatever the latch holds. -/
theorem takeByte_next_cases {b : Byte} {s t : State} (h : takeByte b s = .next t) :
    (∃ latch, t = { s with latch := latch }) ∨ (∃ op, t = raiseFault causeIllegal op { s with latch := [] }) ∨
      ∃ i, exec i { s with latch := [] } = .next t := by
  by_cases hrun : s.Running
  case neg => rw [takeByte_of_halted hrun] at h; cases h; exact .inl ⟨s.latch, rfl⟩
  rw [takeByte_of_running hrun] at h
  split at h
  case h_1 latch _ => cases h; exact .inl ⟨latch, rfl⟩
  case h_2 op _ => cases h; exact .inr (.inl ⟨op, rfl⟩)
  case h_3 i _ => exact .inr (.inr ⟨i, h⟩)
  case h_4 => cases h

theorem takeByte_histories_grow {b : Byte} {s t : State} (h : takeByte b s = .next t) :
    s.rsp <+: t.rsp ∧ s.out <+: t.out := by
  rcases takeByte_next_cases h with ⟨latch, rfl⟩ | ⟨op, rfl⟩ | ⟨i, hexec⟩
  · exact ⟨List.prefix_rfl, List.prefix_rfl⟩
  · simp
  · exact exec_histories_grow (s := { s with latch := [] }) hexec

/-- What had crossed the ports before an execution that a reset cuts short stays handed over (70_reset_and_hazards.md
R155). -/
theorem cutShort_histories_grow {s t : State} (h : s.rsp <+: t.rsp ∧ s.out <+: t.out) :
    s.rsp <+: (cutShort s t).rsp ∧ s.out <+: (cutShort s t).out :=
  ⟨List.prefix_take_iff.2 ⟨h.1, Nat.le_add_right _ _⟩, List.prefix_take_iff.2 ⟨h.2, Nat.le_add_right _ _⟩⟩

/-- Settles O43, by what a step can have done. -/
theorem outputHistoriesOnlyGrow : Obligations.OutputHistoriesOnlyGrow := by
  intro s t hstep
  rcases step_next_cases hstep with ⟨_, rfl⟩ | ⟨b, rest, _, htake⟩ | ⟨rest, _, rfl⟩ | ⟨b, rest, u, _, htake, rfl⟩
  · exact ⟨List.prefix_rfl, List.prefix_rfl⟩
  · exact takeByte_histories_grow (s := { s with cmd := rest }) htake
  · exact ⟨List.prefix_rfl, List.prefix_rfl⟩
  · exact cutShort_histories_grow (s := { s with cmd := rest }) (takeByte_histories_grow htake)

/-! The reset state. -/

/-- With no Framebuffer byte listed every pixel is clear (10_state.md R20). -/
theorem pixGet_nil (x y : Nat) : pixGet [] x y = false := by simp [pixGet]

/-- With no Text Grid cell written every cell reads as a free value (93_implementation_defined.md U3). -/
theorem tgCell_nil (draw t : Nat) : tgCell draw [] t = Config.freeCell draw t := rfl

/-- Settles O32. -/
theorem resetStateIsTheSpecs : Obligations.ResetStateIsTheSpecs :=
  ⟨⟨fbByte_nil, tgCell_nil, rfl, rfl, rfl⟩, pixGet_nil, rfl, rfl, rfl⟩

/-- Settles O40. -/
theorem resetMeetsTheInvariant : Obligations.ResetMeetsTheInvariant := inv_of_reset_values rfl rfl rfl rfl

end Sys2Proof.Machine
end

section
/-! PROOFS. The command as the unit of every effect (20_memory.md R50): the machine that takes bytes on `CMD` is the
machine that executes commands. -/

namespace Sys2Proof

/-! The decoder reads exactly what the encoder writes (30_encoding.md R64). -/

theorem decode_encode_append {i : Instr} (hi : i.WellFormed = true) (rest : List Byte) :
    decode (encode i ++ rest) = .command i rest := by
  cases i with
  | drawtext x y text =>
    exact (decode_opDrawtext _).trans (decodeTxt_append x y text rest (of_decide_eq_true hi))
  | tgload cells => exact (decode_opTgload _).trans (decodeGrd_append cells rest (of_decide_eq_true hi))
  | clear | drawgrid | flush => rfl
  | setpx x y | clrpx x y | getpx x y => rfl
  | drawchar x y code | tgset col row code => rfl
  | drawgauge x y width height percent => rfl

theorem decode_encode {i : Instr} (hi : i.WellFormed = true) : decode (encode i) = .command i [] := by
  simpa using decode_encode_append hi []

theorem opcodeOf_mem_opcodes (i : Instr) : opcodeOf i ∈ opcodes := by
  cases i <;> simp [opcodeOf, opcodes]

/-- Whatever decodes to a command is that command's encoding and what follows it. -/
theorem wellFormed_and_eq_encode_of_decode {bs rest : List Byte} {i : Instr} (h : decode bs = .command i rest) :
    i.WellFormed = true ∧ bs = encode i ++ rest := by
  cases bs with
  | nil => cases h
  | cons op operands =>
    by_cases hop : op ∈ opcodes
    case neg => rw [decode_illegal hop] at h; cases h
    simp only [opcodes, List.mem_cons, List.not_mem_nil, or_false] at hop
    rcases hop with rfl | rfl | rfl | rfl | rfl | rfl | rfl | rfl | rfl | rfl | rfl
    · cases h; exact ⟨rfl, rfl⟩
    · obtain ⟨x, y, rfl, rfl⟩ := decodeXY_command h; exact ⟨rfl, rfl⟩
    · obtain ⟨x, y, rfl, rfl⟩ := decodeXY_command h; exact ⟨rfl, rfl⟩
    · obtain ⟨x, y, rfl, rfl⟩ := decodeXY_command h; exact ⟨rfl, rfl⟩
    · obtain ⟨x, y, code, rfl, rfl⟩ := decode3_command h; exact ⟨rfl, rfl⟩
    · obtain ⟨x, y, text, rfl, hlen, rfl⟩ := decodeTxt_command h; exact ⟨decide_eq_true hlen, rfl⟩
    · obtain ⟨col, row, code, rfl, rfl⟩ := decode3_command h; exact ⟨rfl, rfl⟩
    · obtain ⟨cells, rfl, hlen, rfl⟩ := decodeGrd_command h; exact ⟨decide_eq_true hlen, rfl⟩
    · cases h; exact ⟨rfl, rfl⟩
    · obtain ⟨x, y, width, height, percent, rfl, rfl⟩ := decodeGau_command h; exact ⟨rfl, rfl⟩
    · cases h; exact ⟨rfl, rfl⟩

/-- Bytes that follow a command do not change it. -/
theorem decode_append_of_command {bs rest : List Byte} {i : Instr} (h : decode bs = .command i rest)
    (more : List Byte) : decode (bs ++ more) = .command i (rest ++ more) := by
  obtain ⟨hi, rfl⟩ := wellFormed_and_eq_encode_of_decode h
  rw [List.append_assoc, decode_encode_append hi]

/-- No proper beginning of a command is one itself, since the missing bytes would be left over (30_encoding.md R61). -/
theorem decode_take_encode {i : Instr} (hi : i.WellFormed = true) {n : Nat} (hn : n < (encode i).length) :
    decode ((encode i).take n) = .incomplete := by
  induction n with
  | zero => exact decode_nil
  | succ n ih =>
    have hlt : n < (encode i).length := Nat.lt_of_succ_lt hn
    have htake : (encode i).take (n + 1) = (encode i).take n ++ [(encode i)[n]] := (List.take_concat_get' _ _ hlt).symm
    rcases decode_append_byte (ih hlt) (encode i)[n] with h | ⟨j, h⟩ | ⟨hnil, hillegal, _⟩
    · rw [htake]; exact h
    · rw [← htake] at h
      have hwhole := decode_append_of_command h ((encode i).drop (n + 1))
      rw [List.take_append_drop, decode_encode hi] at hwhole
      injection hwhole with _ hdrop
      have hlen := congrArg List.length hdrop
      simp only [List.length_nil, List.nil_append, List.length_drop] at hlen
      omega
    · have hzero : n = 0 := by simpa [encode] using hnil
      subst hzero
      exact absurd (opcodeOf_mem_opcodes i) hillegal

end Sys2Proof

namespace Sys2Proof.Machine

open Sys2Proof

/-! A running block and the bytes of one command (30_encoding.md R60, R61). -/

theorem step_of_incomplete {s : State} {b : Byte} {rest : List HostEvent} (hrun : s.Running)
    (hcmd : s.cmd = .byte b :: rest) (hdecode : decode (s.latch ++ [b]) = .incomplete) :
    step s = .next { s with latch := s.latch ++ [b], cmd := rest } := by
  rw [step_byte hcmd, takeByte_of_running (s := { s with cmd := rest }) hrun]
  simp [acceptByte, hdecode]

theorem step_of_command {s : State} {b : Byte} {rest : List HostEvent} {i : Instr} (hrun : s.Running)
    (hcmd : s.cmd = .byte b :: rest) (hdecode : decode (s.latch ++ [b]) = .command i []) :
    step s = exec i { s with latch := [], cmd := rest } := by
  rw [step_byte hcmd, takeByte_of_running (s := { s with cmd := rest }) hrun]
  simp [acceptByte, hdecode]

theorem run_one (s : State) : Sys2Proof.core.run 1 s = step s := by
  cases hstep : step s with
  | next t => exact run_succ_of_next hstep 0
  | fault f => exact run_succ_of_fault hstep 0
  | refused r => exact run_succ_of_refused hstep 0

/-- Before its last byte a command has no effect: its bytes stand in the latch. -/
theorem run_beginning_of_command {i : Instr} {s : State} {rest : List HostEvent} (hi : i.WellFormed = true)
    (hrun : s.Running) (hlatch : s.latch = []) (hcmd : s.cmd = (encode i).map HostEvent.byte ++ rest) {n : Nat}
    (hn : n < (encode i).length) :
    Sys2Proof.core.run n s =
      .next { s with latch := (encode i).take n, cmd := ((encode i).drop n).map HostEvent.byte ++ rest } := by
  induction n with
  | zero => rw [run_zero, List.take_zero, List.drop_zero, ← hlatch, ← hcmd]
  | succ n ih =>
    have hlt : n < (encode i).length := Nat.lt_of_succ_lt hn
    have hincomplete := decode_take_encode hi hn
    rw [← List.take_concat_get' _ _ hlt] at hincomplete ⊢
    rw [run_add_of_next 1 (ih hlt), run_one]
    exact step_of_incomplete hrun (by rw [List.drop_eq_getElem_cons hlt]; rfl) hincomplete

/-- With its last byte the command has its whole effect, the latch being empty and its bytes taken. -/
theorem run_command {i : Instr} {s : State} {rest : List HostEvent} (hi : i.WellFormed = true)
    (hrun : s.Running) (hlatch : s.latch = []) (hcmd : s.cmd = (encode i).map HostEvent.byte ++ rest) :
    Sys2Proof.core.run (encode i).length s = exec i { s with latch := [], cmd := rest } := by
  have hlt : (operandsOf i).length < (encode i).length := Nat.lt_succ_self _
  have hlast : (encode i).take (operandsOf i).length ++ [(encode i)[(operandsOf i).length]] = encode i := by
    rw [List.take_concat_get' _ _ hlt]; exact List.take_of_length_le (Nat.le_refl _)
  have hdrop : (encode i).drop (operandsOf i).length = [(encode i)[(operandsOf i).length]] := by
    rw [List.drop_eq_getElem_cons hlt]; exact congrArg _ (List.drop_length (l := encode i))
  rw [show (encode i).length = (operandsOf i).length + 1 from rfl,
    run_add_of_next 1 (run_beginning_of_command hi hrun hlatch hcmd hlt), run_one]
  exact step_of_command hrun (by rw [hdrop]; rfl) (by rw [hlast]; exact decode_encode hi)

/-- A halted block takes bytes and discards them (60_exceptions.md R139). -/
theorem run_halted_bytes {rest : List HostEvent} (bytes : List Byte) : ∀ {s : State}, ¬ s.Running →
    s.cmd = bytes.map HostEvent.byte ++ rest →
    Sys2Proof.core.run bytes.length s = .next { s with cmd := rest } := by
  induction bytes with
  | nil => intro s _ hcmd; rw [List.map_nil, List.nil_append] at hcmd; rw [← hcmd]; exact run_zero s
  | cons b bytes ih =>
    intro s hhalted hcmd
    have hstep := (step_byte hcmd).trans (takeByte_of_halted hhalted)
    rw [List.length_cons, run_succ_of_next hstep]
    exact ih hhalted rfl

/-! Commands one after the other. -/

/-- A command that bytes can carry always answers a next state, with a fault or without. -/
theorem exec_next_of_wellFormed {i : Instr} (hi : i.WellFormed = true) (s : State) : ∃ t, exec i s = .next t := by
  cases i with
  | clear | drawgrid | flush => exact ⟨_, rfl⟩
  | setpx x y => simp only [exec, execSetpx]; split <;> exact ⟨_, rfl⟩
  | clrpx x y => simp only [exec, execClrpx]; split <;> exact ⟨_, rfl⟩
  | getpx x y => simp only [exec, execGetpx]; split <;> exact ⟨_, rfl⟩
  | drawchar x y code => simp only [exec, execDrawchar, drawcharWith]; split <;> exact ⟨_, rfl⟩
  | drawtext x y text =>
    simp only [exec, execDrawtext, drawtextWith, if_pos (of_decide_eq_true hi : text.length ≤ 255)]
    split <;> exact ⟨_, rfl⟩
  | tgset col row code => simp only [exec, execTgset]; split <;> exact ⟨_, rfl⟩
  | tgload cells => exact ⟨_, if_pos (of_decide_eq_true hi : cells.length = 64)⟩
  | drawgauge x y width height percent =>
    simp only [exec, execDrawgauge]
    split
    · exact ⟨_, rfl⟩
    · split <;> exact ⟨_, rfl⟩

theorem exec_latch {i : Instr} {s t : State} (h : exec i s = .next t) : t.latch = s.latch := by
  obtain ⟨_, _, _, _, _, hlatch, _⟩ := whoWritesWhat i s t h
  exact hlatch

theorem exec_cmd {i : Instr} {s t : State} (h : exec i s = .next t) : t.cmd = s.cmd := by
  obtain ⟨_, _, _, _, _, _, hcmd⟩ := whoWritesWhat i s t h
  exact hcmd

theorem runCommands_of_halted (is : List Instr) {s : State} (h : ¬ s.Running) : runCommands is s = .next s := by
  cases is with
  | nil => rfl
  | cons i is => exact if_pos (by simpa [State.halted] using h)

theorem runCommands_cons_of_next {i : Instr} {s t : State} (hrun : s.Running) (h : exec i s = .next t)
    (is : List Instr) : runCommands (i :: is) s = runCommands is t := by
  simp [runCommands, (halted_eq_false_iff s).2 hrun, h]

/-- Settles O37, by induction on the commands: in a running block the bytes of the first one are its execution, which
looks at no byte that comes after them; a halted block discards them all. -/
theorem bytesRefineCommands : Obligations.BytesRefineCommands := by
  intro is
  induction is with
  | nil =>
    intro s rest _ _ hcmd
    rw [encodeAll, List.flatMap_nil, List.map_nil, List.nil_append] at hcmd
    rw [← hcmd]
    exact run_zero s
  | cons i is ih =>
    intro s rest hwf hlatch hcmd
    by_cases hrun : s.Running
    case neg =>
      have hstay := runCommands_of_halted (i :: is) (s := { s with cmd := rest }) hrun
      exact (run_halted_bytes _ hrun hcmd).trans hstay.symm
    obtain ⟨hi, his⟩ := List.forall_mem_cons.1 hwf
    have hall : encodeAll (i :: is) = encode i ++ encodeAll is := List.flatMap_cons
    rw [hall, List.map_append, List.append_assoc] at hcmd
    obtain ⟨t, ht⟩ := exec_next_of_wellFormed hi { s with cmd := rest }
    have hfirst : Sys2Proof.core.run (encode i).length s =
        .next { t with cmd := (encodeAll is).map HostEvent.byte ++ rest } := by
      rw [run_command hi hrun hlatch hcmd, ← hlatch]
      exact exec_next_with_cmd ht _
    have htcmd : t.cmd = rest := exec_cmd ht
    rw [hall, List.length_append, run_add_of_next _ hfirst,
      ih { t with cmd := (encodeAll is).map HostEvent.byte ++ rest } rest his ((exec_latch ht).trans hlatch) rfl,
      runCommands_cons_of_next (s := { s with cmd := rest }) hrun ht, ← htcmd]

end Sys2Proof.Machine
end

section
/-! PROOFS. The statements about the memories (20_memory.md): pixel addresses, the wrap of columns, the pixel
primitives, the frame write in pixels, glyph rows and glyph bits. -/

namespace Sys2Proof.Machine

open Sys2Proof

/-! The fields of an address (20_memory.md R38). -/

/-- The pixel address as a number: seven column bits below six row bits. -/
theorem pixelAddress_toNat (x : Nat) {y : Nat} (hy : y < 64) : (pixelAddress x y).toNat = 128 * y + x % 128 := by
  have hcol : x % 128 < 2 ^ 7 := Nat.mod_lt _ (by decide)
  have hrow : y % 64 = y := Nat.mod_eq_of_lt hy
  simp only [pixelAddress, BitVec.toNat_append, BitVec.toNat_ofNat, Nat.reducePow, hrow]
  rw [← Nat.shiftLeft_add_eq_or_of_lt hcol, Nat.shiftLeft_eq, Nat.mul_comm]

theorem addressPage_toNat (pa : BitVec 13) : (addressPage pa).toNat = pa.toNat / 1024 % 8 := by
  simp [addressPage, Nat.shiftRight_eq_div_pow]

theorem addressBit_toNat (pa : BitVec 13) : (addressBit pa).toNat = pa.toNat / 128 % 8 := by
  simp [addressBit, Nat.shiftRight_eq_div_pow]

theorem addressHalf_toNat (pa : BitVec 13) : (addressHalf pa).toNat = pa.toNat / 64 % 2 := by
  simp [addressHalf, Nat.shiftRight_eq_div_pow]

theorem addressColumn_toNat (pa : BitVec 13) : (addressColumn pa).toNat = pa.toNat % 64 := by
  simp [addressColumn]

/-- Page, half and column-in-half side by side: the two lower fields are the seven low bits of the address. -/
theorem byteAddress_toNat (pa : BitVec 13) :
    (addressPage pa ++ addressHalf pa ++ addressColumn pa).toNat = 128 * (pa.toNat / 1024 % 8) + pa.toNat % 128 := by
  have hhalf : (addressHalf pa).toNat < 2 ^ 1 := (addressHalf pa).isLt
  have hcol : (addressColumn pa).toNat < 2 ^ 6 := (addressColumn pa).isLt
  rw [BitVec.toNat_append, BitVec.toNat_append, ← Nat.shiftLeft_add_eq_or_of_lt hhalf,
    ← Nat.shiftLeft_add_eq_or_of_lt hcol, Nat.shiftLeft_eq, Nat.shiftLeft_eq, addressPage_toNat, addressHalf_toNat,
    addressColumn_toNat]
  omega

theorem bitMask_toNat {b : Nat} (hb : b < 8) : (bitMask b).toNat = 2 ^ b := BitVec.toNat_twoPow_of_lt hb

/-- Settles O6, field by field from the address as a number. -/
theorem pixelAddressFields : Obligations.PixelAddressFields := by
  intro x y hy
  have hbyte : pixelByte x y = 128 * (y / 8) + x % 128 := rfl
  have hhalf : half (column x) = x / 64 % 2 := by unfold half column; omega
  have hcol : halfColumn (column x) = x % 64 := by unfold halfColumn column; omega
  have haddr := pixelAddress_toNat x hy
  refine ⟨?_, ?_, ?_, hhalf, ?_, hcol, haddr, ?_, hbyte, pixelByte_lt hy, bitMask_toNat (Nat.mod_lt y (by decide))⟩
  · rw [addressPage_toNat, haddr]; omega
  · rw [addressBit_toNat, haddr]; omega
  · rw [addressHalf_toNat, haddr, hhalf]; omega
  · rw [addressColumn_toNat, haddr, hcol]; omega
  · rw [byteAddress_toNat, haddr, hbyte]; omega

/-! A column is a column modulo 128 (20_memory.md R33): nothing drawn at `x` depends on more of `x`. -/

theorem pixelByte_congr_column {x x' : Nat} (h : x % 128 = x' % 128) (y : Nat) : pixelByte x y = pixelByte x' y :=
  congrArg (byteAddr (page y)) h

theorem pixGet_congr_column {x x' : Nat} (h : x % 128 = x' % 128) (fb : List Host.Cell) (y : Nat) :
    pixGet fb x y = pixGet fb x' y := by
  unfold pixGet; rw [pixelByte_congr_column h]

theorem pixModify_congr_column {x x' : Nat} (h : x % 128 = x' % 128) (fb : List Host.Cell) (y : Nat)
    (f : Byte → Byte → Byte) : pixModify fb x y f = pixModify fb x' y f := by
  unfold pixModify; rw [pixelByte_congr_column h]

theorem pixSet_congr_column {x x' : Nat} (h : x % 128 = x' % 128) (fb : List Host.Cell) (y : Nat) :
    pixSet fb x y = pixSet fb x' y := pixModify_congr_column h fb y _

theorem pixClr_congr_column {x x' : Nat} (h : x % 128 = x' % 128) (fb : List Host.Cell) (y : Nat) :
    pixClr fb x y = pixClr fb x' y := pixModify_congr_column h fb y _

theorem pixTgl_congr_column {x x' : Nat} (h : x % 128 = x' % 128) (fb : List Host.Cell) (y : Nat) :
    pixTgl fb x y = pixTgl fb x' y := pixModify_congr_column h fb y _

theorem pixPut_congr_column {x x' : Nat} (h : x % 128 = x' % 128) (fb : List Host.Cell) (y : Nat) (v : Bool) :
    pixPut fb x y v = pixPut fb x' y v := by
  unfold pixPut; rw [pixSet_congr_column h, pixClr_congr_column h]

/-- The columns to the right of `x` wrap with it. -/
theorem add_mod_congr_column {x x' : Nat} (h : x % 128 = x' % 128) (i : Nat) : (x + i) % 128 = (x' + i) % 128 :=
  Nat.ModEq.add_right i h

theorem blit_congr_column {x x' : Nat} (h : x % 128 = x' % 128) (P : Params) (fb : List Host.Cell) (y : Nat)
    (code : Byte) : blit P fb x y code = blit P fb x' y code := by
  simp only [blit, blitRow, pixPut_congr_column (add_mod_congr_column h _)]

theorem drawRun_congr_column (P : Params) (y : Nat) (text : List Byte) : ∀ {x x' : Nat}, x % 128 = x' % 128 →
    ∀ fb : List Host.Cell, drawRun P y x text fb = drawRun P y x' text fb := by
  induction text with
  | nil => intro x x' _ fb; rfl
  | cons code text ih =>
    intro x x' h fb
    rw [drawRun, drawRun, blit_congr_column h, ih (add_mod_congr_column h 8)]

theorem toggleColumn_congr_column {x x' : Nat} (h : x % 128 = x' % 128) (fb : List Host.Cell) (y height : Nat) :
    toggleColumn fb x y height = toggleColumn fb x' y height := by
  simp only [toggleColumn, pixTgl_congr_column h]

theorem borderColumn_congr_column {x x' : Nat} (h : x % 128 = x' % 128) (fb : List Host.Cell) (y height : Nat) :
    borderColumn fb x y height = borderColumn fb x' y height := by
  simp only [borderColumn, pixSet_congr_column h]

theorem edgeColumn_congr_column {x x' : Nat} (h : x % 128 = x' % 128) (fb : List Host.Cell) (y height : Nat) :
    edgeColumn fb x y height = edgeColumn fb x' y height := by
  simp only [edgeColumn, pixSet_congr_column h]

theorem gaugeBar_congr_column {x x' : Nat} (h : x % 128 = x' % 128) (fb : List Host.Cell)
    (y width height fill : Nat) : gaugeBar fb x y width height fill = gaugeBar fb x' y width height fill := by
  simp only [gaugeBar, edgeColumn_congr_column (add_mod_congr_column h _),
    toggleColumn_congr_column (add_mod_congr_column h _), borderColumn_congr_column (add_mod_congr_column h _)]

/-- The byte addition may wrap at 256, which 128 divides. -/
theorem toNat_add_128_mod (x : Byte) : (x + 128#8).toNat % 128 = x.toNat % 128 := by
  rw [BitVec.toNat_add, BitVec.toNat_ofNat]; omega

/-- Settles O8: each meaning reads `x` through a drawing that looks at its column alone. -/
theorem columnsWrapForEveryCommand : Obligations.ColumnsWrapForEveryCommand := by
  intro x y code width height percent text s
  have h := toNat_add_128_mod x
  refine ⟨?_, ?_, ?_, ?_, ?_, ?_⟩
  · simp only [exec, execSetpx, pixSet_congr_column h]
  · simp only [exec, execClrpx, pixClr_congr_column h]
  · simp only [exec, execGetpx, pixelAnswer, pixGet_congr_column h]
  · simp only [exec, execDrawchar, drawcharWith, blit_congr_column h]
  · simp only [exec, execDrawtext, drawtextWith, drawRun_congr_column Config.params y.toNat text h]
  · simp only [exec, execDrawgauge, gaugeBar_congr_column h]

/-! The four primitives on bytes (20_memory.md R39 to R42). -/

/-- On the byte of its own pixel a primitive applies its operation. -/
theorem fbByte_pixModify_same (fb : List Host.Cell) (x : Nat) {y : Nat} (hy : y < 64) (f : Byte → Byte → Byte) :
    fbByte (pixModify fb x y f) (pixelByte x y) = f (fbByte fb (pixelByte x y)) (bitMask (bitOffset y)) := by
  rw [fbByte_pixModify, if_pos ⟨rfl, hy⟩]

/-- R41 writes the complement of the mask as a difference. -/
theorem sub_bitMask (b : Nat) : 255#8 - bitMask b = ~~~bitMask b := BitVec.allOnes_sub_eq_not _

/-- Two toggles give every byte back: a byte XORed twice with one mask is that byte. -/
theorem fbByte_pixTgl_pixTgl (fb : List Host.Cell) (x y a : Nat) :
    fbByte (pixTgl (pixTgl fb x y) x y) a = fbByte fb a := by
  simp only [pixTgl, fbByte_pixModify]
  split
  · rw [BitVec.xor_assoc, BitVec.xor_self, BitVec.xor_zero]
  · rfl

/-- Settles O7. -/
theorem pixelPrimitives : Obligations.PixelPrimitives := by
  intro fb x y hy
  refine ⟨?_, fbByte_pixModify_same fb x hy _, ?_, fbByte_pixModify_same fb x hy _, fun a ha => ?_,
    ?_, ?_, ?_, fun x' y' hother => ?_, fbByte_pixTgl_pixTgl fb x y, fun k => ?_⟩
  · simp [pixGet, rowInRange, hy, bitOffset]
  · exact (fbByte_pixModify_same fb x hy _).trans (congrArg _ (sub_bitMask _).symm)
  · have hbyte : y < 64 → pixelByte x y ≠ a := fun _ => ha.symm
    exact ⟨fbByte_pixModify_other hbyte, fbByte_pixModify_other hbyte, fbByte_pixModify_other hbyte⟩
  · rw [pixGet_pixSet, if_pos ⟨hy, rfl, rfl⟩]
  · rw [pixGet_pixClr, if_pos ⟨hy, rfl, rfl⟩]
  · rw [pixGet_pixTgl, if_pos ⟨hy, rfl, rfl⟩]
  · have hpixel : ¬ (y < 64 ∧ x % 128 = x' % 128 ∧ y = y') := by omega
    rw [pixGet_pixSet, pixGet_pixClr, pixGet_pixTgl, if_neg hpixel, if_neg hpixel, if_neg hpixel]
    exact ⟨rfl, rfl, rfl⟩
  · have hcol : (x + 128 * k) % 128 = x % 128 := Nat.add_mul_mod_self_left x 128 k
    exact ⟨pixGet_congr_column hcol fb y, pixSet_congr_column hcol fb y, pixClr_congr_column hcol fb y,
      pixTgl_congr_column hcol fb y⟩

/-! The frame write in pixels. -/

/-- Beat `512h + 64p + hc` of a frame write is that of half `h`, page `p`, column-in-half `hc`. -/
theorem frameBeats_getElem?_fields (fb : List Host.Cell) {h p hc : Nat} (hh : h < 2) (hp : p < 8) (hhc : hc < 64) :
    (frameBeats fb)[512 * h + 64 * p + hc]? = some (frameBeat fb h p hc) := by
  have hhalf : (512 * h + 64 * p + hc) / 512 = h := by omega
  have hpage : (512 * h + 64 * p + hc) / 64 % 8 = p := by omega
  have hcol : (512 * h + 64 * p + hc) % 64 = hc := by omega
  rw [frameBeats_getElem? fb (by omega), hhalf, hpage, hcol]

/-- Settles O26: the beats come after what has crossed `OUT` before, and a byte is read as its eight pixels. -/
theorem flushCarriesThePixels : Obligations.FlushCarriesThePixels := by
  intro s h p hc b hh hp hhc hb
  refine ⟨emitOut (frameBeats s.fb) s, frameBeat s.fb h p hc, rfl, ?_, ?_, ?_, ?_, ?_⟩
  · rw [emitOut_out, List.getElem?_append_right (Nat.le_add_right _ _), Nat.add_sub_cancel_left,
      frameBeats_getElem?_fields s.fb hh hp hhc]
  · exact Nat.mod_eq_of_lt hh
  · exact Nat.mod_eq_of_lt hp
  · exact Nat.mod_eq_of_lt hhc
  · exact fbByte_getLsbD hp (by omega) hb

/-! Glyph rows and glyph bits (20_memory.md R45, R46). -/

theorem fontAddr_toNat (code : Byte) {row : Nat} (hrow : row < 16) :
    (fontAddr code row).toNat = 16 * code.toNat + row := by
  have hcode := code.isLt
  exact Nat.mod_eq_of_lt (by omega)

theorem fontAddr_code (code : Byte) {row : Nat} (hrow : row < 16) : (fontAddr code row).extractLsb' 4 8 = code := by
  have hcode := code.isLt
  apply BitVec.eq_of_toNat_eq
  rw [BitVec.extractLsb'_toNat, fontAddr_toNat code hrow, Nat.shiftRight_eq_div_pow]
  omega

theorem fontAddr_row (code : Byte) {row : Nat} (hrow : row < 16) :
    ((fontAddr code row).extractLsb' 0 4).toNat = row := by
  rw [BitVec.extractLsb'_toNat, fontAddr_toNat code hrow, Nat.shiftRight_zero]
  omega

theorem glyphBit_of_reference {P : Params} (hP : P.glyphBitBase = .reference) (code : Byte) (row col : Nat) :
    glyphBit P code row col = (fontRow P code row).getLsbD (8 - col) := by
  simp [glyphBit, glyphBase, hP]

theorem glyphBit_of_corrected {P : Params} (hP : P.glyphBitBase = .corrected) (code : Byte) (row col : Nat) :
    glyphBit P code row col = (fontRow P code row).getLsbD (7 - col) := by
  simp [glyphBit, glyphBase, hP]

/-- Settles O9. With the reference base the leftmost column asks for bit 8 of a byte, which reads 0. -/
theorem glyphBitTest : Obligations.GlyphBitTest := by
  intro P code row col hrow _
  refine ⟨fontAddr_toNat code hrow, fontAddr_code code hrow, fontAddr_row code hrow, rfl, fun hP hcol => ?_,
    fun hP _ => glyphBit_of_reference hP code row col, fun hP => glyphBit_of_corrected hP code row col⟩
  rw [glyphBit_of_reference hP, hcol]
  exact BitVec.getLsbD_of_ge _ 8 (Nat.le_refl 8)

end Sys2Proof.Machine
end

section
/-! PROOFS. The statements about the encoding (30_encoding.md): the decoder and the encoder, the illegal opcode bytes, the
command at its last byte, and that the block always goes on. -/

namespace Sys2Proof

/-! Decoder and encoder (30_encoding.md R60, R64, R65). -/

/-- Settles O1. -/
theorem decodeOfEncodeGivesTheCommandBack : Obligations.DecodeOfEncodeGivesTheCommandBack :=
  fun _ rest hi => decode_encode_append hi rest

/-- Settles O2. -/
theorem decodedBytesAreAnEncoding : Obligations.DecodedBytesAreAnEncoding :=
  fun _ _ _ h => wellFormed_and_eq_encode_of_decode h

/-- Settles O3. -/
theorem beginningOfACommandIsIncomplete : Obligations.BeginningOfACommandIsIncomplete :=
  fun _ _ hi hn => decode_take_encode hi hn

/-! The illegal opcode bytes (30_encoding.md R66). -/

/-- The complement of the opcode map (R63) is the five ranges of R66. -/
theorem not_mem_opcodes_iff (op : Byte) :
    op ∉ opcodes ↔
      (op.toNat = 0 ∨ (5 ≤ op.toNat ∧ op.toNat ≤ 0x0F) ∨ (0x15 ≤ op.toNat ∧ op.toNat ≤ 0x1F) ∨
        (0x21 ≤ op.toNat ∧ op.toNat ≤ 0x2F) ∨ 0x31 ≤ op.toNat) := by
  simp only [opcodes, opClear, opSetpx, opClrpx, opGetpx, opDrawchar, opDrawtext, opTgset, opTgload, opDrawgrid,
    opDrawgauge, opFlush, List.mem_cons, List.not_mem_nil, or_false, not_or, ← BitVec.toNat_inj, BitVec.toNat_ofNat]
  exact ⟨fun h => by omega, fun h => by omega⟩

/-- After a legal opcode byte no bytes are illegal: one byte more continues the command or follows it. -/
theorem decode_incomplete_or_command {op : Byte} (hop : op ∈ opcodes) (operands : List Byte) :
    decode (op :: operands) = .incomplete ∨ ∃ i rest, decode (op :: operands) = .command i rest := by
  induction operands using List.reverseRecOn with
  | nil =>
    rcases decode_append_byte decode_nil op with h | ⟨i, h⟩ | ⟨_, hillegal, _⟩
    · exact .inl h
    · exact .inr ⟨i, [], h⟩
    · exact absurd hop hillegal
  | append_singleton operands b ih =>
    rw [← List.cons_append]
    rcases ih with hincomplete | ⟨i, rest, hcommand⟩
    · rcases decode_append_byte hincomplete b with h | ⟨i, h⟩ | ⟨hnil, _, _⟩
      · exact .inl h
      · exact .inr ⟨i, [], h⟩
      · cases hnil
    · exact .inr ⟨i, rest ++ [b], decode_append_of_command hcommand [b]⟩

theorem decode_eq_illegal_iff (op : Byte) (rest : List Byte) : decode (op :: rest) = .illegal op rest ↔ op ∉ opcodes := by
  refine ⟨fun hillegal hop => ?_, fun hop => decode_illegal hop rest⟩
  rcases decode_incomplete_or_command hop rest with h | ⟨i, r, h⟩
  · cases h.symm.trans hillegal
  · cases h.symm.trans hillegal

/-- Of the 256 byte values all but the eleven of R63 are illegal. -/
theorem illegal_opcode_count : ((List.range 256).filter fun n => decide (BitVec.ofNat 8 n ∉ opcodes)).length = 245 := by
  decide +kernel

end Sys2Proof

namespace Sys2Proof.Machine

open Sys2Proof

/-- A running block with an empty latch faults on an illegal opcode byte as it takes it (R66; 60_exceptions.md R137). -/
theorem step_of_illegal {s : State} {op : Byte} {rest : List HostEvent} (hrun : s.Running) (hlatch : s.latch = [])
    (hcmd : s.cmd = .byte op :: rest) (hop : op ∉ opcodes) :
    step s = .next { s with cmd := rest, fcause := causeIllegal, fop := op } := by
  have haccept : acceptByte s.latch op = .illegal op := by
    rw [hlatch, acceptByte, List.nil_append, decode_illegal hop]
  rw [step_byte hcmd, takeByte_of_running (s := { s with cmd := rest }) hrun, haccept, ← hlatch]
  exact congrArg Host.Outcome.next (raiseFault_of_running (s := { s with cmd := rest }) hrun)

/-- Settles O5. -/
theorem illegalOpcodeFaultsWhenTaken : Obligations.IllegalOpcodeFaultsWhenTaken :=
  ⟨fun op rest => (decode_eq_illegal_iff op rest).trans (not_mem_opcodes_iff op), illegal_opcode_count,
    fun _ _ _ hrun hlatch hcmd hop => step_of_illegal hrun hlatch hcmd hop⟩

/-! A command byte by byte (30_encoding.md R60, R61). -/

/-- Settles O36. -/
theorem commandActsWhenItsLastByteIsTaken : Obligations.CommandActsWhenItsLastByteIsTaken :=
  ⟨fun _ _ _ hi hrun hlatch hcmd =>
      ⟨fun _ hn => run_beginning_of_command hi hrun hlatch hcmd hn, run_command hi hrun hlatch hcmd⟩,
    fun _ s _ hop hrun hlatch hcmd => (run_one s).trans (step_of_illegal hrun hlatch hcmd hop)⟩

/-- Settles O34. -/
theorem blockWaitsForTheHost : Obligations.BlockWaitsForTheHost :=
  ⟨fun _ hcmd => step_idle hcmd, fun _ _ _ hrun hcmd hdecode => step_of_incomplete hrun hcmd hdecode⟩

/-- Settles O35. -/
theorem stepRunsTheDecodedCommand : Obligations.StepRunsTheDecodedCommand :=
  fun _ _ _ _ hrun hcmd hdecode => step_of_command hrun hcmd hdecode

/-! The block always goes on. -/

/-- The two formats whose operand bytes are counted are refused at a wrong count (R64, R65). -/
theorem exec_refused_of_not_wellFormed {i : Instr} (hi : i.WellFormed = false) (s : State) :
    exec i s = .refused .illFormed := by
  cases i with
  | drawtext x y text => exact if_neg (of_decide_eq_false hi : ¬ text.length ≤ 255)
  | tgload cells => exact if_neg (of_decide_eq_false hi : ¬ cells.length = 64)
  | clear | drawgrid | flush => cases hi
  | setpx x y | clrpx x y | getpx x y => cases hi
  | drawchar x y code | tgset col row code => cases hi
  | drawgauge x y width height percent => cases hi

/-- Settles O38. -/
theorem wellFormedCommandsComplete : Obligations.WellFormedCommandsComplete :=
  fun _ s => ⟨fun hi => exec_next_of_wellFormed hi s, fun hi => exec_refused_of_not_wellFormed hi s⟩

/-- What the latch of a reachable state and a byte make up is never impossible, and a command they complete is one that
bytes carry, hence not refused. -/
theorem takeByte_progress {s : State} (hlatch : decode s.latch = .incomplete) (b : Byte) :
    ∃ t, takeByte b s = .next t := by
  rcases takeByte_cases hlatch b with ⟨_, h⟩ | ⟨_, _, h⟩ | ⟨_, _, _, h⟩ | ⟨i, _, hdecode, h⟩
  · exact ⟨_, h⟩
  · exact ⟨_, h⟩
  · exact ⟨_, h⟩
  · obtain ⟨hi, _⟩ := wellFormed_and_eq_encode_of_decode hdecode
    rw [h]
    exact exec_next_of_wellFormed hi _

theorem step_progress {s : State} (h : s.Inv) : ∃ t, step s = .next t := by
  cases hcmd : s.cmd with
  | nil => exact ⟨s, step_idle hcmd⟩
  | cons event rest =>
    cases event with
    | reset => exact ⟨_, step_reset hcmd⟩
    | byte b => rw [step_byte hcmd]; exact takeByte_progress (s := { s with cmd := rest }) h.latchIncomplete b
    | byteThenReset b =>
      obtain ⟨u, hu⟩ := takeByte_progress (s := { s with cmd := rest }) h.latchIncomplete b
      exact ⟨cutShort { s with cmd := rest } u, by simp [step, hcmd, hu]⟩

/-- Settles O41, by induction on the number of steps: each goes on and keeps the invariant. -/
theorem everyRunGoesOn : Obligations.EveryRunGoesOn := by
  intro k
  induction k with
  | zero => exact fun s h => ⟨s, run_zero s, h⟩
  | succ k ih =>
    intro s h
    obtain ⟨t, ht⟩ := step_progress h
    rw [run_succ_of_next ht]
    exact ih t (everyStepKeepsTheInvariant s t h ht)

end Sys2Proof.Machine
end

section
/-! PROOFS. The statements about the Framebuffer operations (40_framebuffer_ops.md R80 to R83): CLEAR, SETPX, CLRPX and
GETPX as commands, what crosses `RSP`, and set or clear then query as bytes on `CMD`. -/

namespace Sys2Proof.Machine

open Sys2Proof

/-! One equation per command and branch of its range test. -/

theorem not_rowInRange_of_le {y : Nat} (hy : 64 ≤ y) : ¬ rowInRange y = true :=
  fun h => Nat.not_lt.2 hy (rowInRange_iff.1 h)

theorem exec_clear (s : State) : exec .clear s = .next { s with fb := [] } := rfl

theorem exec_setpx_of_lt (x : Byte) {y : Byte} (hy : y.toNat < 64) (s : State) :
    exec (.setpx x y) s = .next { s with fb := pixSet s.fb x.toNat y.toNat } := if_pos (rowInRange_iff.2 hy)

theorem exec_setpx_of_le (x : Byte) {y : Byte} (hy : 64 ≤ y.toNat) (s : State) :
    exec (.setpx x y) s = .next (raiseFault causeYrange opSetpx s) := if_neg (not_rowInRange_of_le hy)

theorem exec_clrpx_of_lt (x : Byte) {y : Byte} (hy : y.toNat < 64) (s : State) :
    exec (.clrpx x y) s = .next { s with fb := pixClr s.fb x.toNat y.toNat } := if_pos (rowInRange_iff.2 hy)

theorem exec_clrpx_of_le (x : Byte) {y : Byte} (hy : 64 ≤ y.toNat) (s : State) :
    exec (.clrpx x y) s = .next (raiseFault causeYrange opClrpx s) := if_neg (not_rowInRange_of_le hy)

theorem exec_getpx_of_lt (x : Byte) {y : Byte} (hy : y.toNat < 64) (s : State) :
    exec (.getpx x y) s = .next (emitRsp (pixelAnswer s.fb x.toNat y.toNat) s) := if_pos (rowInRange_iff.2 hy)

theorem exec_getpx_of_le (x : Byte) {y : Byte} (hy : 64 ≤ y.toNat) (s : State) :
    exec (.getpx x y) s = .next (raiseFault causeYrange opGetpx s) := if_neg (not_rowInRange_of_le hy)

/-- A command that answers with fault entry takes that fault (60_exceptions.md R137; 10_state.md R13). -/
theorem takesFault_of_exec_eq_raiseFault {i : Instr} {s : State} {cause : BitVec 2} {op : Byte}
    (h : exec i s = .next (raiseFault cause op s)) : TakesFault i s cause op :=
  ⟨fun hrun => by rw [h, raiseFault_of_running hrun], fun hhalted => by rw [h, raiseFault_of_halted hhalted]⟩

/-! The bytes under a set and a clear, with the masks as R81 and R82 write them. -/

theorem fbByte_pixSet_same (fb : List Host.Cell) (x : Nat) {y : Nat} (hy : y < 64) :
    fbByte (pixSet fb x y) (pixelByte x y) = fbByte fb (pixelByte x y) ||| BitVec.twoPow 8 (y % 8) :=
  fbByte_pixModify_same fb x hy _

theorem fbByte_pixSet_other (fb : List Host.Cell) {x y a : Nat} (ha : a ≠ pixelByte x y) :
    fbByte (pixSet fb x y) a = fbByte fb a := fbByte_pixModify_other fun _ => ha.symm

theorem fbByte_pixClr_same (fb : List Host.Cell) (x : Nat) {y : Nat} (hy : y < 64) :
    fbByte (pixClr fb x y) (pixelByte x y) = fbByte fb (pixelByte x y) &&& (255#8 - BitVec.twoPow 8 (y % 8)) :=
  (fbByte_pixModify_same fb x hy _).trans (congrArg _ (sub_bitMask _).symm)

theorem fbByte_pixClr_other (fb : List Host.Cell) {x y a : Nat} (ha : a ≠ pixelByte x y) :
    fbByte (pixClr fb x y) a = fbByte fb a := fbByte_pixModify_other fun _ => ha.symm

/-! The four commands. -/

/-- Settles O10. -/
theorem clearClearsEveryPixel : Obligations.ClearClearsEveryPixel :=
  ⟨rfl, fun s => ⟨{ s with fb := [] }, exec_clear s, rfl, fbByte_nil, pixGet_nil⟩⟩

/-- Settles O11: in range the command is `PixSet`, the read-modify-write of one byte. -/
theorem setpxSetsOnePixel : Obligations.SetpxSetsOnePixel := by
  intro x y s
  refine ⟨rfl, fun hy => ?_, fun hy => takesFault_of_exec_eq_raiseFault (exec_setpx_of_le x hy s)⟩
  exact ⟨_, exec_setpx_of_lt x hy s, rfl, fbByte_pixSet_same s.fb x.toNat hy, fun _ ha => fbByte_pixSet_other s.fb ha⟩

/-- Settles O12: in range the command is `PixClr`, the read-modify-write with the complemented mask. -/
theorem clrpxClearsOnePixel : Obligations.ClrpxClearsOnePixel := by
  intro x y s
  refine ⟨rfl, fun hy => ?_, fun hy => takesFault_of_exec_eq_raiseFault (exec_clrpx_of_le x hy s)⟩
  exact ⟨_, exec_clrpx_of_lt x hy s, rfl, fbByte_pixClr_same s.fb x.toNat hy, fun _ ha => fbByte_pixClr_other s.fb ha⟩

/-- In range the answer is the pixel's bit of its byte (R83; 20_memory.md R39). -/
theorem pixelAnswer_of_lt (fb : List Host.Cell) (x : Nat) {y : Nat} (hy : y < 64) :
    pixelAnswer fb x y = if (fbByte fb (pixelByte x y)).getLsbD (y % 8) then 0x01#8 else 0x00#8 := by
  simp only [pixelAnswer, pixGet, rowInRange_iff.2 hy, Bool.true_and, bitOffset]

/-- Settles O13. -/
theorem getpxAnswersOneByte : Obligations.GetpxAnswersOneByte := by
  intro x y s
  refine ⟨rfl, fun hy => ?_, fun hy => takesFault_of_exec_eq_raiseFault (exec_getpx_of_le x hy s)⟩
  rw [exec_getpx_of_lt x hy, pixelAnswer_of_lt s.fb x.toNat hy, emitRsp]

/-! What crosses `RSP` (R83). -/

/-- Every one of `bs` is an answer that GETPX can give. -/
def AllZeroOrOne (bs : List Byte) : Prop := ∀ b ∈ bs, b = 0x00#8 ∨ b = 0x01#8

theorem AllZeroOrOne.append_singleton {bs : List Byte} (h : AllZeroOrOne bs) {b : Byte}
    (hb : b = 0x00#8 ∨ b = 0x01#8) : AllZeroOrOne (bs ++ [b]) :=
  List.forall_mem_append.2 ⟨h, List.forall_mem_singleton.2 hb⟩

theorem AllZeroOrOne.take {bs : List Byte} (h : AllZeroOrOne bs) (n : Nat) : AllZeroOrOne (bs.take n) :=
  fun b hb => h b (List.mem_of_mem_take hb)

theorem exec_keeps_responses {i : Instr} {s t : State} (h : AllZeroOrOne s.rsp) (hexec : exec i s = .next t) :
    AllZeroOrOne t.rsp := by
  rcases exec_effect hexec with ⟨_, _, rfl⟩ | ⟨_, _, rfl, _⟩ | ⟨_, rfl, _⟩ | ⟨b, hb, rfl⟩ | ⟨_, rfl⟩
  · rwa [raiseFault_rsp]
  · exact h
  · exact h
  · exact h.append_singleton hb
  · exact h

theorem takeByte_keeps_responses {b : Byte} {s t : State} (h : AllZeroOrOne s.rsp) (htake : takeByte b s = .next t) :
    AllZeroOrOne t.rsp := by
  rcases takeByte_next_cases htake with ⟨_, rfl⟩ | ⟨_, rfl⟩ | ⟨i, hexec⟩
  · exact h
  · rwa [raiseFault_rsp]
  · exact exec_keeps_responses (s := { s with latch := [] }) h hexec

/-- Settles O44, by what a step can have done; an execution that a reset cuts short has handed over a beginning of what
it would have (70_reset_and_hazards.md R155). -/
theorem responsesAreZeroOrOne : Obligations.ResponsesAreZeroOrOne := by
  intro s t h hstep
  rcases step_next_cases hstep with ⟨_, rfl⟩ | ⟨b, rest, _, htake⟩ | ⟨rest, _, rfl⟩ | ⟨b, rest, u, _, htake, rfl⟩
  · exact h
  · exact takeByte_keeps_responses (s := { s with cmd := rest }) h htake
  · exact h
  · exact (takeByte_keeps_responses (s := { s with cmd := rest }) h htake).take _

/-! Draw, then query, over the wire (95_test_vectors.md S1, S2). -/

/-- The bytes of a command that leaves the Framebuffer `fb`, and then of a GETPX: the block answers what `fb` shows. -/
theorem run_draw_then_getpx {i : Instr} {x y : Byte} {s : State} {rest : List HostEvent} {fb : List Host.Cell}
    (hi : i.WellFormed = true) (hy : y.toNat < 64) (hrun : s.Running) (hlatch : s.latch = [])
    (hcmd : s.cmd = (encodeAll [i, .getpx x y]).map HostEvent.byte ++ rest)
    (hdraw : exec i { s with cmd := rest } = .next { s with cmd := rest, fb := fb }) :
    ∃ t, Sys2Proof.core.run (encodeAll [i, .getpx x y]).length s = .next t ∧
      t.rsp = s.rsp ++ [pixelAnswer fb x.toNat y.toNat] ∧ t.cmd = rest := by
  have hwf : ∀ j ∈ [i, .getpx x y], j.WellFormed = true :=
    List.forall_mem_cons.2 ⟨hi, List.forall_mem_singleton.2 rfl⟩
  have hquery := exec_getpx_of_lt x hy { s with cmd := rest, fb := fb }
  refine ⟨emitRsp (pixelAnswer fb x.toNat y.toNat) { s with cmd := rest, fb := fb }, ?_, rfl, rfl⟩
  rw [bytesRefineCommands _ s rest hwf hlatch hcmd,
    runCommands_cons_of_next (s := { s with cmd := rest }) hrun hdraw,
    runCommands_cons_of_next (s := { s with cmd := rest, fb := fb }) hrun hquery]
  rfl

theorem pixelAnswer_pixSet (fb : List Host.Cell) (x : Nat) {y : Nat} (hy : y < 64) :
    pixelAnswer (pixSet fb x y) x y = 0x01#8 :=
  if_pos (by rw [pixGet_pixSet, if_pos ⟨hy, rfl, rfl⟩])

theorem pixelAnswer_pixClr (fb : List Host.Cell) (x : Nat) {y : Nat} (hy : y < 64) :
    pixelAnswer (pixClr fb x y) x y = 0x00#8 :=
  if_neg (by rw [pixGet_pixClr, if_pos ⟨hy, rfl, rfl⟩]; exact Bool.false_ne_true)

theorem pixelAnswer_nil (x y : Nat) : pixelAnswer [] x y = 0x00#8 :=
  if_neg (by rw [pixGet_nil]; exact Bool.false_ne_true)

/-- Settles O45: each sequence of bytes is a drawing command and a GETPX. -/
theorem setThenQueryOverTheWire : Obligations.SetThenQueryOverTheWire := by
  intro x y s rest hy hrun hlatch
  refine ⟨fun hcmd => ?_, fun hcmd => ?_, fun hcmd => ?_⟩
  · rw [← pixelAnswer_pixSet s.fb x.toNat hy]
    exact run_draw_then_getpx (i := .setpx x y) rfl hy hrun hlatch hcmd (exec_setpx_of_lt x hy _)
  · rw [← pixelAnswer_pixClr s.fb x.toNat hy]
    exact run_draw_then_getpx (i := .clrpx x y) rfl hy hrun hlatch hcmd (exec_clrpx_of_lt x hy _)
  · rw [← pixelAnswer_nil x.toNat y.toNat]
    exact run_draw_then_getpx (i := .clear) rfl hy hrun hlatch hcmd (exec_clear _)

end Sys2Proof.Machine
end

section
/-! PROOFS. The statements about the glyph blitter (41_glyph_blit.md R90, R91): DRAWCHAR as a command, and a character
drawn over another. -/

namespace Sys2Proof.Machine

open Sys2Proof

/-! `Blit` seen from its cell and from outside it (R91). -/

/-- In a pixel of the cell the glyph bit stands, whatever `fb` held there. -/
theorem pixGet_blit_cell (P : Params) (fb : List Host.Cell) (x : Nat) {y row col : Nat} (code : Byte) (hy : y ≤ 48)
    (hrow : row < 16) (hcol : col < 8) :
    pixGet (blit P fb x y code) (x + col) (y + row) = glyphBit P code row col := by
  have hcolumn : columnsFrom x (x + col) = col := (columnsFrom_eq_iff (by omega)).2 rfl
  rw [pixGet_blit, hcolumn, if_pos (by omega), Nat.add_sub_cancel_left]

/-- A pixel that is none of the cell's 128 keeps its value: its distances from the origin would name it in the cell. -/
theorem pixGet_blit_other (P : Params) (fb : List Host.Cell) {x y x' y' : Nat} (code : Byte)
    (h : ∀ row col, row < 16 → col < 8 → ¬ ((x + col) % 128 = x' % 128 ∧ y + row = y')) :
    pixGet (blit P fb x y code) x' y' = pixGet fb x' y' := by
  rw [pixGet_blit, if_neg]
  rintro ⟨_, hlo, hhi, hcol⟩
  have hcolumn : (x + columnsFrom x x') % 128 = x' % 128 := (columnsFrom_eq_iff (columnsFrom_lt x x')).1 rfl
  exact h (y' - y) (columnsFrom x x') (by omega) hcol ⟨hcolumn, Nat.add_sub_cancel' hlo⟩

/-- Full overwrite: of two glyphs blitted into one cell only the second is seen. -/
theorem pixGet_blit_blit (P : Params) (fb : List Host.Cell) (x y : Nat) (code code' : Byte) (x' y' : Nat) :
    pixGet (blit P (blit P fb x y code) x y code') x' y' = pixGet (blit P fb x y code') x' y' := by
  simp only [pixGet_blit]
  by_cases hcell : y' < 64 ∧ y ≤ y' ∧ y' < y + 16 ∧ columnsFrom x x' < 8
  · rw [if_pos hcell, if_pos hcell]
  · rw [if_neg hcell, if_neg hcell, if_neg hcell]

/-- In canonical form the two pictures are the same Framebuffer. -/
theorem blit_blit (P : Params) {fb : List Host.Cell} (h : fbWf fb = true) (x y : Nat) (code code' : Byte) :
    blit P (blit P fb x y code) x y code' = blit P fb x y code' :=
  fb_ext_pixel (blit_wf P (blit_wf P h x y code) x y code') (blit_wf P h x y code') fun x' y' _ _ =>
    pixGet_blit_blit P fb x y code code' x' y'

/-! DRAWCHAR, one equation per branch of its range test (R90). -/

theorem glyphLastRow_inRange_iff {y : Nat} : rowInRange (glyphLastRow y) = true ↔ y ≤ 48 :=
  rowInRange_iff.trans (by unfold glyphLastRow; omega)

theorem exec_drawchar_of_le (x : Byte) {y : Byte} (code : Byte) (hy : y.toNat ≤ 48) (s : State) :
    exec (.drawchar x y code) s = .next { s with fb := blit Config.params s.fb x.toNat y.toNat code } :=
  if_pos (glyphLastRow_inRange_iff.2 hy)

theorem exec_drawchar_of_lt (x : Byte) {y : Byte} (code : Byte) (hy : 48 < y.toNat) (s : State) :
    exec (.drawchar x y code) s = .next (raiseFault causeYrange opDrawchar s) :=
  if_neg fun h => Nat.not_le.2 hy (glyphLastRow_inRange_iff.1 h)

/-- Settles O14: in range the command is `Blit`, seen pixel by pixel and byte by byte. -/
theorem drawcharBlitsOneGlyph : Obligations.DrawcharBlitsOneGlyph := by
  intro x y code s
  refine ⟨rfl, fun hy => ?_, fun hy => takesFault_of_exec_eq_raiseFault (exec_drawchar_of_lt x code hy s)⟩
  refine ⟨_, exec_drawchar_of_le x code hy s, rfl, ?cell, ?otherPixels, ?otherBytes⟩
  case cell => exact fun row col hrow hcol => pixGet_blit_cell _ s.fb _ code hy hrow hcol
  case otherPixels => exact fun x' y' houtside => pixGet_blit_other _ s.fb code houtside
  case otherBytes =>
    exact fun a houtside => fbByte_blit_other _ s.fb _ _ code a fun row col hrow hcol _ => houtside row col hrow hcol

/-- A character drawn over another leaves the state that it leaves alone. -/
theorem exec_drawchar_after_drawchar (x : Byte) {y : Byte} (code code' : Byte) (hy : y.toNat ≤ 48) {s : State}
    (h : fbWf s.fb = true) :
    exec (.drawchar x y code') { s with fb := blit Config.params s.fb x.toNat y.toNat code } =
      exec (.drawchar x y code') s := by
  rw [exec_drawchar_of_le x code' hy, exec_drawchar_of_le x code' hy, blit_blit _ h]

/-- Settles O24: the same character again is the case of one code. -/
theorem secondCharacterLeavesNoTrace : Obligations.SecondCharacterLeavesNoTrace := by
  intro x y code code' s h hy
  have hfirst := exec_drawchar_of_le x code hy s
  have hsecond := exec_drawchar_of_le x code' hy s
  exact ⟨_, _, _, hfirst, (exec_drawchar_after_drawchar x code code' hy h).trans hsecond, hsecond, rfl,
    (exec_drawchar_after_drawchar x code code hy h).trans hfirst⟩

end Sys2Proof.Machine
end

section
/-! PROOFS. The statements about text and the Text Grid (42_text.md R100 to R104): DRAWTEXT, TGSET, TGLOAD and DRAWGRID as
commands, a shorter text over a longer one, and the picture of a grid that is fully written. -/

namespace Sys2Proof.Machine

open Sys2Proof

/-! TGSET and TGLOAD (R101, R102). -/

theorem exec_tgset_of_le {col row : Byte} (code : Byte) (h : col.toNat ≤ 15 ∧ row.toNat ≤ 3) (s : State) :
    exec (.tgset col row code) s = .next { s with tg := tgWrite s.tg (cellAddr row.toNat col.toNat) code } :=
  if_pos ⟨Nat.lt_succ_of_le h.1, Nat.lt_succ_of_le h.2⟩

theorem exec_tgset_of_lt {col row : Byte} (code : Byte) (h : 15 < col.toNat ∨ 3 < row.toNat) (s : State) :
    exec (.tgset col row code) s = .next (raiseFault causeBadarg opTgset s) :=
  if_neg (by omega)

theorem exec_tgload {cells : List Byte} (h : cells.length = 64) (s : State) :
    exec (.tgload cells) s = .next { s with tg := loadCells 0 cells s.tg } :=
  if_pos h

/-- A cell written since reset is no free draw. -/
theorem tgCell_of_read {tg : List Host.Cell} {t : Nat} {v : Byte} (h : Memory.read t tg = some v) (draw : Nat) :
    tgCell draw tg t = v := by
  rw [tgCell, h, Option.getD_some]

theorem read_tgWrite_same (tg : List Host.Cell) {t : Nat} (ht : t < 64) (v : Byte) :
    Memory.read t (tgWrite tg t v) = some v := by
  rw [read_tgWrite, if_pos ⟨rfl, ht⟩]

theorem read_tgWrite_other (tg : List Host.Cell) {t a : Nat} (h : a ≠ t) (v : Byte) :
    Memory.read a (tgWrite tg t v) = Memory.read a tg := by
  rw [read_tgWrite, if_neg fun h' => h h'.1.symm]

/-- Settles O16: in range the command is one Text Grid write. -/
theorem tgsetWritesOneCell : Obligations.TgsetWritesOneCell := by
  intro col row code s
  refine ⟨rfl, fun h => ?_, fun h => takesFault_of_exec_eq_raiseFault (exec_tgset_of_lt code h s)⟩
  have hwritten : Memory.read (16 * row.toNat + col.toNat) (tgWrite s.tg (cellAddr row.toNat col.toNat) code) =
      some code := read_tgWrite_same s.tg (t := cellAddr row.toNat col.toNat) (by unfold cellAddr; omega) code
  exact ⟨_, exec_tgset_of_le code h s, rfl, hwritten, tgCell_of_read hwritten,
    fun _ ha => read_tgWrite_other s.tg ha code⟩

/-- Cell `c` of a grid load is at linear address `c` (R102). -/
theorem read_loadCells_cell {cells : List Byte} (hlen : cells.length = 64) (tg : List Host.Cell) {c : Nat}
    (hc : c < cells.length) : Memory.read c (loadCells 0 cells tg) = some cells[c] := by
  rw [read_loadCells _ _ _ _ (by omega), if_pos (by omega), Nat.sub_zero, List.getD_eq_getElem _ _ hc]

/-- There is no cell of the grid beyond the 64, and a grid load touches none. -/
theorem read_loadCells_of_le {cells : List Byte} (hlen : cells.length = 64) (tg : List Host.Cell) {a : Nat}
    (ha : 64 ≤ a) : Memory.read a (loadCells 0 cells tg) = Memory.read a tg := by
  rw [read_loadCells _ _ _ _ (by omega), if_neg (by omega)]

/-- Settles O17. -/
theorem tgloadWritesEveryCell : Obligations.TgloadWritesEveryCell := by
  intro cells s hlen
  refine ⟨rfl, _, exec_tgload hlen s, rfl, fun c hc => ?_, fun a ha => read_loadCells_of_le hlen s.tg ha⟩
  have hread := read_loadCells_cell hlen s.tg (hlen.symm ▸ hc)
  exact ⟨hread, tgCell_of_read hread⟩

/-! DRAWTEXT, one equation per branch of its range test (R100). -/

theorem exec_drawtext_of_le (x : Byte) {y : Byte} {text : List Byte} (hlen : text.length ≤ 255)
    (h : text = [] ∨ y.toNat ≤ 48) (s : State) :
    exec (.drawtext x y text) s = .next { s with fb := drawRun Config.params y.toNat x.toNat text s.fb } := by
  have htest : (text.isEmpty || rowInRange (glyphLastRow y.toNat)) = true := by
    rwa [Bool.or_eq_true, List.isEmpty_iff, glyphLastRow_inRange_iff]
  exact (if_pos hlen).trans (if_pos htest)

theorem exec_drawtext_of_lt (x : Byte) {y : Byte} {text : List Byte} (hlen : text.length ≤ 255) (htext : text ≠ [])
    (hy : 48 < y.toNat) (s : State) :
    exec (.drawtext x y text) s = .next (raiseFault causeYrange opDrawtext s) := by
  have htest : ¬ (text.isEmpty || rowInRange (glyphLastRow y.toNat)) = true := by
    rw [Bool.or_eq_true, List.isEmpty_iff, glyphLastRow_inRange_iff]
    exact not_or.2 ⟨htext, Nat.not_le.2 hy⟩
  exact (if_pos hlen).trans (if_neg htest)

/-- A pixel that is in none of the run's cells keeps its value: its distances from the origin of a cell would name it
there. -/
theorem pixGet_drawRun_outside (P : Params) {x y x' y' : Nat} {text : List Byte} (fb : List Host.Cell)
    (h : ∀ k row col, k < text.length → row < 16 → col < 8 →
      ¬ ((x + 8 * k + col) % 128 = x' % 128 ∧ y + row = y')) :
    pixGet (drawRun P y x text fb) x' y' = pixGet fb x' y' := by
  refine pixGet_drawRun_other P y x' y' text x fb fun _ hlo hhi k hk => Nat.not_lt.1 fun hcol => ?_
  have hcolumn : (x + 8 * k + columnsFrom (x + 8 * k) x') % 128 = x' % 128 :=
    (columnsFrom_eq_iff (columnsFrom_lt _ _)).1 rfl
  exact h k (y' - y) (columnsFrom (x + 8 * k) x') hk (by omega) hcol ⟨hcolumn, Nat.add_sub_cancel' hlo⟩

/-- Settles O15: the command is the run of its characters, seen pixel by pixel and byte by byte. A text that is not
empty has been drawn only with `y` up to 48. -/
theorem drawtextBlitsTheRun : Obligations.DrawtextBlitsTheRun := by
  intro x y text s hlen
  refine ⟨rfl, fun h => ?_, fun htext hy =>
    takesFault_of_exec_eq_raiseFault (exec_drawtext_of_lt x hlen htext hy s)⟩
  refine ⟨_, exec_drawtext_of_le x hlen h s, rfl, ?empty, ?cells, ?otherPixels, ?otherBytes⟩
  case empty => rintro rfl; rfl
  case cells =>
    intro k hk hlast row col hrow hcol
    have hy : y.toNat ≤ 48 := h.resolve_left (List.ne_nil_of_length_pos (Nat.zero_lt_of_lt hk))
    exact pixGet_drawRun_cell _ _ row col hrow hcol (by omega) text _ s.fb k hk hlast
  case otherPixels => exact fun x' y' houtside => pixGet_drawRun_outside _ s.fb houtside
  case otherBytes =>
    exact fun a houtside => fbByte_drawRun_other _ _ a text _ s.fb fun k row col hk hrow hcol _ =>
      houtside k row col hk hrow hcol

/-! A shorter text over a longer one (R104). -/

/-- A text of at most 16 characters comes to no cell twice. -/
theorem pixGet_drawRun_cell_of_short (P : Params) (fb : List Host.Cell) (x : Nat) {y k row col : Nat}
    {text : List Byte} (hy : y ≤ 48) (hlen : text.length ≤ 16) (hk : k < text.length) (hrow : row < 16)
    (hcol : col < 8) :
    pixGet (drawRun P y x text fb) (x + 8 * k + col) (y + row) = glyphBit P text[k] row col :=
  pixGet_drawRun_cell P y row col hrow hcol (by omega) text x fb k hk fun k' _ _ => by omega

/-- Of the 16 cells from the origin on, those from the end of the text on keep their pixels. -/
theorem pixGet_drawRun_tail (P : Params) (fb : List Host.Cell) (x : Nat) {y k row col : Nat} {text : List Byte}
    (htail : text.length ≤ k) (hk : k < 16) (hcol : col < 8) :
    pixGet (drawRun P y x text fb) (x + 8 * k + col) (y + row) = pixGet fb (x + 8 * k + col) (y + row) :=
  pixGet_drawRun_outside P fb fun k' row' col' _ _ _ => by omega

/-- Settles O23. -/
theorem shorterTextLeavesTheTail : Obligations.ShorterTextLeavesTheTail := by
  intro x y long short s hy hle hlong
  have hlongDrawn := exec_drawtext_of_le x (text := long) (by omega) (.inr hy) s
  refine ⟨_, _, hlongDrawn, exec_drawtext_of_le x (text := short) (by omega) (.inr hy) _, ?own, ?tail⟩
  case own =>
    exact fun k hk row col hrow hcol => pixGet_drawRun_cell_of_short _ _ _ hy (hle.trans hlong) hk hrow hcol
  case tail =>
    intro k hk row col htail hrow hcol
    exact (pixGet_drawRun_tail _ _ _ htail (hk.trans_le hlong) hcol).trans
      (pixGet_drawRun_cell_of_short _ s.fb _ hy hlong hk hrow hcol)

/-! DRAWGRID (R103). -/

theorem exec_drawgrid (s : State) :
    exec .drawgrid s =
      .next { s with fb := renderGrid Config.params (tgCell s.draw s.tg) s.fb, draw := s.draw + 1 } := rfl

/-- DRAWGRID seen from the cell a pixel is in: its code alone decides the pixel (R103 a). -/
theorem pixGet_renderGrid_cell (P : Params) (codes : Nat → Byte) (fb : List Host.Cell) {r c row col : Nat} (hr : r < 4)
    (hc : c < 16) (hrow : row < 16) (hcol : col < 8) :
    pixGet (renderGrid P codes fb) (8 * c + col) (16 * r + row) = glyphBit P (codes (16 * r + c)) row col := by
  have hcell : cellAddr ((16 * r + row) / 16) ((8 * c + col) % 128 / 8) = 16 * r + c := by unfold cellAddr; omega
  rw [pixGet_renderGrid, rowInRange_iff.2 (by omega), Bool.true_and, hcell, show (16 * r + row) % 16 = row by omega,
    show (8 * c + col) % 8 = col by omega]

/-- Settles O18: both DRAWGRID commands find the byte of a written cell, whatever their free draws are. -/
theorem drawgridBlitsTheGrid : Obligations.DrawgridBlitsTheGrid := by
  refine ⟨rfl, fun s => ⟨_, exec_drawgrid s, rfl, ?cells, ?written, ?beyond, _, exec_drawgrid _, ?again⟩⟩
  case cells => exact fun r c row col hr hc hrow hcol => pixGet_renderGrid_cell _ _ s.fb hr hc hrow hcol
  case written => exact fun a v h => tgCell_of_read h s.draw
  case beyond => exact fun a ha => fbByte_renderGrid_other _ _ s.fb ha
  case again =>
    rintro r c row col hr hc hrow hcol ⟨v, hv⟩
    rw [pixGet_renderGrid_cell _ _ _ hr hc hrow hcol, pixGet_renderGrid_cell _ _ _ hr hc hrow hcol,
      tgCell_of_read hv, tgCell_of_read hv]

/-- The picture is a function of the 64 codes: what was on the screen is forgotten (R103 a). -/
theorem renderGrid_congr (P : Params) {codes codes' : Nat → Byte} {fb fb' : List Host.Cell} (h : fbWf fb = true)
    (h' : fbWf fb' = true) (hcodes : ∀ c, c < 64 → codes c = codes' c) :
    renderGrid P codes fb = renderGrid P codes' fb' := by
  refine fb_ext_pixel (renderGrid_wf P codes h) (renderGrid_wf P codes' h') fun x' y' _ hy' => ?_
  rw [pixGet_renderGrid, pixGet_renderGrid, hcodes _ (by unfold cellAddr; omega)]

/-- In a grid that is fully written every DRAWGRID finds the same codes. -/
theorem tgCell_eq_of_written {tg : List Host.Cell} (h : ∀ c, c < 64 → ∃ v, Memory.read c tg = some v)
    (draw draw' : Nat) (c : Nat) (hc : c < 64) : tgCell draw tg c = tgCell draw' tg c := by
  obtain ⟨v, hv⟩ := h c hc
  rw [tgCell_of_read hv, tgCell_of_read hv]

/-- Settles O25. -/
theorem drawgridForgetsThePicture : Obligations.DrawgridForgetsThePicture := by
  intro s s' h h' htg hwritten
  refine ⟨_, _, _, exec_drawgrid s, exec_drawgrid s', exec_drawgrid _, ?otherPicture, ?again⟩
  case otherPicture =>
    rw [← htg]
    exact renderGrid_congr _ h h' (tgCell_eq_of_written hwritten s.draw s'.draw)
  case again => exact renderGrid_congr _ (renderGrid_wf _ _ h) h (tgCell_eq_of_written hwritten (s.draw + 1) s.draw)

end Sys2Proof.Machine
end

section
/-! PROOFS. The statements about the gauge (43_gauge.md R115 to R117): the mapping from percent to filled columns,
DRAWGAUGE as a command, and the gauge at 0 and at 100 percent. -/

namespace Sys2Proof.Machine

open Sys2Proof

/-! The mapping from percent to filled columns (R116). -/

theorem mul_width_le {percent : Nat} (h : percent ≤ 100) (width : Nat) : percent * width ≤ 100 * width :=
  Nat.mul_le_mul_right width h

theorem gaugeFill_le_width {percent : Nat} (h : percent ≤ 100) (width : Nat) : gaugeFill percent width ≤ width :=
  Nat.div_le_of_le_mul (mul_width_le h width)

theorem gaugeFill_zero_percent (width : Nat) : gaugeFill 0 width = 0 := by rw [gaugeFill, Nat.zero_mul, Nat.zero_div]

theorem gaugeFill_zero_width (percent : Nat) : gaugeFill percent 0 = 0 := by rw [gaugeFill, Nat.mul_zero, Nat.zero_div]

theorem gaugeFill_hundred (width : Nat) : gaugeFill 100 width = width := Nat.mul_div_cancel_left width (by decide)

/-- Below 100 percent the division truncates at least one column away. -/
theorem gaugeFill_lt_width {percent width : Nat} (h : percent < 100) (hw : 0 < width) :
    gaugeFill percent width < width :=
  Nat.div_lt_of_lt_mul (Nat.mul_lt_mul_of_pos_right h hw)

theorem gaugeFill_mono {percent percent' : Nat} (h : percent ≤ percent') (width : Nat) :
    gaugeFill percent width ≤ gaugeFill percent' width :=
  Nat.div_le_div_right (Nat.mul_le_mul_right width h)

theorem gaugeFill_eq_width_iff {percent : Nat} (h : percent ≤ 100) (width : Nat) :
    gaugeFill percent width = width ↔ percent = 100 ∨ width = 0 := by
  constructor
  · intro heq
    by_contra hne
    have := gaugeFill_lt_width (percent := percent) (width := width) (by omega) (by omega)
    omega
  · rintro (rfl | rfl)
    · exact gaugeFill_hundred width
    · exact gaugeFill_zero_width percent

/-- Settles O21. -/
theorem gaugeFillMapping : Obligations.GaugeFillMapping := by
  intro percent width hp hw
  refine ⟨rfl, ?product, gaugeFill_le_width hp width, ?zero, gaugeFill_eq_width_iff hp width,
    fun percent' hle _ => gaugeFill_mono hle width⟩
  case product => exact (Nat.mul_le_mul hp hw : percent * width ≤ 100 * 255)
  case zero =>
    rintro (rfl | rfl)
    · exact gaugeFill_zero_percent width
    · exact gaugeFill_zero_width percent

/-! DRAWGAUGE, one equation per outcome of its tests (R115). -/

theorem gaugeLastRow_inRange_iff {y height : Nat} : rowInRange (gaugeLastRow y height) = true ↔ y + height ≤ 64 :=
  rowInRange_iff.trans (by unfold gaugeLastRow; omega)

theorem exec_drawgauge_of_badarg (x y width : Byte) {height percent : Byte}
    (h : height.toNat = 0 ∨ 100 < percent.toNat) (s : State) :
    exec (.drawgauge x y width height percent) s = .next (raiseFault causeBadarg opDrawgauge s) := if_pos h

theorem exec_drawgauge_of_le (x : Byte) {y : Byte} (width : Byte) {height percent : Byte} (hh : 0 < height.toNat)
    (hp : percent.toNat ≤ 100) (hy : y.toNat + height.toNat ≤ 64) (s : State) :
    exec (.drawgauge x y width height percent) s = .next { s with
      fb := gaugeBar s.fb x.toNat y.toNat width.toNat height.toNat (gaugeFill percent.toNat width.toNat) } :=
  (if_neg (by omega)).trans (if_pos (gaugeLastRow_inRange_iff.2 hy))

theorem exec_drawgauge_of_lt (x : Byte) {y : Byte} (width : Byte) {height percent : Byte} (hh : 0 < height.toNat)
    (hp : percent.toNat ≤ 100) (hy : 64 < y.toNat + height.toNat) (s : State) :
    exec (.drawgauge x y width height percent) s = .next (raiseFault causeYrange opDrawgauge s) :=
  (if_neg (by omega)).trans (if_neg fun h => Nat.not_le.2 hy (gaugeLastRow_inRange_iff.1 h))

/-! The bar, pixel by pixel, for every width. -/

/-- The loop is the fold over its indices in ascending order. -/
theorem forUp_eq_foldl {α : Type} (n : Nat) (f : Nat → α → α) (a : α) :
    forUp n f a = (List.range n).foldl (fun a i => f i a) a := by
  induction n with
  | zero => rfl
  | succ n ih => rw [forUp_succ, ih, List.range_succ, List.foldl_append]; rfl

/-- A visit as R115 words it: an inversion, or the border set and the middle not written. -/
theorem gaugeVisit_eq_ite (filled top bottom : Prop) [Decidable filled] [Decidable top] [Decidable bottom] (v : Bool) :
    gaugeVisit (decide filled) (decide top || decide bottom) v =
      if filled then !v else if top ∨ bottom then true else v := by
  by_cases hf : filled
  · simp only [gaugeVisit, hf, decide_true, if_true]
  · by_cases hb : top ∨ bottom <;> simp [gaugeVisit, hf, hb, ← Bool.decide_or]

/-- With the bar's rows in range the law of the bar's pixels speaks of those rows alone. -/
theorem pixGet_gaugeBar_eq_foldl (fb : List Host.Cell) (x width fill x' y' : Nat) {y height : Nat} (hh : 0 < height)
    (hy : y + height ≤ 64) :
    pixGet (gaugeBar fb x y width height fill) x' y' =
      if y ≤ y' ∧ y' < y + height then
        if (x + width) % 128 = x' % 128 then true
        else (List.range width).foldl
          (fun v i => if (x + i) % 128 = x' % 128 then
            if i < fill then !v else if y' = y ∨ y' = gaugeLastRow y height then true else v else v)
          (pixGet fb x' y')
      else pixGet fb x' y' := by
  have hrows : (y' < 64 ∧ y ≤ y' ∧ y' < y + height) ↔ (y ≤ y' ∧ y' < y + height) := by omega
  simp only [pixGet_gaugeBar fb x y width height fill x' y' hh, hrows, forUp_eq_foldl, gaugeVisit_eq_ite]

/-- Settles O19: in range the command is the bar, seen pixel by pixel and byte by byte. -/
theorem drawgaugeDrawsTheBar : Obligations.DrawgaugeDrawsTheBar := by
  intro x y width height percent s
  refine ⟨rfl, fun hh hp hy => ⟨_, exec_drawgauge_of_le x width hh hp hy s, rfl, ?pixels, ?otherBytes⟩,
    fun hbad => takesFault_of_exec_eq_raiseFault (exec_drawgauge_of_badarg x y width hbad s),
    fun hh hp hy => takesFault_of_exec_eq_raiseFault (exec_drawgauge_of_lt x width hh hp hy s)⟩
  case pixels => exact fun x' y' => pixGet_gaugeBar_eq_foldl s.fb _ _ _ x' y' hh hy
  case otherBytes =>
    exact fun a houtside => fbByte_gaugeBar_other s.fb _ _ _ _ _ a hh fun i r hi hr _ => houtside i r hi hr

/-! The gauge in which no column is visited twice (R117). -/

/-- A loop that acts at one of its indices alone is that one action. -/
theorem forUp_ite_eq {α : Type} {n i : Nat} (hi : i < n) {p : Nat → Prop} [DecidablePred p]
    (hp : ∀ j, j < n → (p j ↔ j = i)) (g : Nat → α → α) (a : α) :
    forUp n (fun j a => if p j then g j a else a) a = g i a := by
  have key : forUp n (fun j a => if p j then g j a else a) a = if i < n then g i a else a := by
    refine forUp_induct (fun k b => b = if i < k then g i a else a) rfl fun j b hj hb => ?_
    by_cases hji : j = i
    · subst hji
      rw [if_pos ((hp j hj).2 rfl), hb, if_neg (Nat.lt_irrefl j), if_pos (Nat.lt_succ_self j)]
    · have hlt : i < j + 1 ↔ i < j := by omega
      simp only [if_neg fun h => hji ((hp j hj).1 h), hb, hlt]
  rw [key, if_pos hi]

/-- A pixel of bar column `i` gets the visit of that column and no other. -/
theorem pixGet_gaugeBar_column (fb : List Host.Cell) (x fill : Nat) {y width height i r : Nat} (hw : width ≤ 127)
    (hy : y + height ≤ 64) (hi : i < width) (hr : r < height) :
    pixGet (gaugeBar fb x y width height fill) (x + i) (y + r) =
      if i < fill then !pixGet fb (x + i) (y + r)
      else if r = 0 ∨ r = height - 1 then true else pixGet fb (x + i) (y + r) := by
  have hcolumn : ∀ j, j < width → ((x + j) % 128 = (x + i) % 128 ↔ j = i) := fun j hj => by omega
  have htop : y + r = y ↔ r = 0 := by omega
  have hbottom : y + r = gaugeLastRow y height ↔ r = height - 1 := by unfold gaugeLastRow; omega
  rw [pixGet_gaugeBar fb x y width height fill _ _ (Nat.zero_lt_of_lt hr), if_pos (by omega), if_neg (by omega),
    forUp_ite_eq hi hcolumn, gaugeVisit_eq_ite]
  simp only [htop, hbottom]

/-- The edge is drawn last and is set whatever the columns are (R115 e). -/
theorem pixGet_gaugeBar_edge (fb : List Host.Cell) (x width fill : Nat) {y height r : Nat} (hy : y + height ≤ 64)
    (hr : r < height) : pixGet (gaugeBar fb x y width height fill) (x + width) (y + r) = true := by
  rw [pixGet_gaugeBar fb x y width height fill _ _ (Nat.zero_lt_of_lt hr), if_pos (by omega), if_pos rfl]

/-- At 0 percent no column is filled. -/
theorem pixGet_gaugeBar_column_at_zero (fb : List Host.Cell) (x : Nat) {y width height i r : Nat} (hw : width ≤ 127)
    (hy : y + height ≤ 64) (hi : i < width) (hr : r < height) :
    pixGet (gaugeBar fb x y width height (gaugeFill 0 width)) (x + i) (y + r) =
      if r = 0 ∨ r = height - 1 then true else pixGet fb (x + i) (y + r) := by
  rw [gaugeFill_zero_percent, pixGet_gaugeBar_column fb x 0 hw hy hi hr, if_neg (Nat.not_lt_zero i)]

/-- At 100 percent every column is filled. -/
theorem pixGet_gaugeBar_column_at_hundred (fb : List Host.Cell) (x : Nat) {y width height i r : Nat}
    (hw : width ≤ 127) (hy : y + height ≤ 64) (hi : i < width) (hr : r < height) :
    pixGet (gaugeBar fb x y width height (gaugeFill 100 width)) (x + i) (y + r) = !pixGet fb (x + i) (y + r) := by
  rw [gaugeFill_hundred, pixGet_gaugeBar_column fb x width hw hy hi hr, if_pos hi]

/-- Settles O22: the second call at 100 percent inverts the inverted columns. -/
theorem gaugeHollowAtZeroAndTogglesAtHundred : Obligations.GaugeHollowAtZeroAndTogglesAtHundred := by
  intro x y width height s hw hh hy
  have hexec {percent : Byte} (hp : percent.toNat ≤ 100) := exec_drawgauge_of_le x width hh hp hy
  refine ⟨⟨_, hexec (by decide) s, ?hollow, ?edge⟩, _, _, hexec (by decide) s, hexec (by decide) _, ?toggled, ?edges⟩
  case hollow => exact fun i r hi hr => pixGet_gaugeBar_column_at_zero s.fb _ hw hy hi hr
  case edge => exact fun r hr => pixGet_gaugeBar_edge s.fb _ _ _ hy hr
  case toggled =>
    intro i r hi hr
    have hfirst := pixGet_gaugeBar_column_at_hundred s.fb x.toNat hw hy hi hr
    refine ⟨hfirst, (pixGet_gaugeBar_column_at_hundred _ _ hw hy hi hr).trans ?_⟩
    exact (congrArg _ hfirst).trans (Bool.not_not _)
  case edges => exact fun r hr => ⟨pixGet_gaugeBar_edge s.fb _ _ _ hy hr, pixGet_gaugeBar_edge _ _ _ _ hy hr⟩

end Sys2Proof.Machine
end

section
/-! PROOFS. The statements about the frame write (44_frame_write.md R126, R128): FLUSH as a command, and the
four-capability view of its beats. -/

namespace Sys2Proof.Machine

open Sys2Proof

/-! FLUSH as a command (R126). -/

/-- Settles O20: the beats come after what has crossed `OUT` before, each at its place in the frame. -/
theorem flushWritesTheWholeFrame : Obligations.FlushWritesTheWholeFrame := by
  refine ⟨rfl, fun s => ⟨emitOut (frameBeats s.fb) s, rfl, rfl, ?length, ?earlier, fun n hn => ?beat⟩⟩
  case length => rw [emitOut_out, List.length_append, frameBeats_length]
  case earlier => exact List.prefix_append _ _
  case beat =>
    rw [emitOut_out, List.getElem?_append_right (Nat.le_add_right _ _), Nat.add_sub_cancel_left,
      frameBeats_getElem? s.fb hn]
    rfl

/-! The device of the four-capability view receives the beats (R128). It is not told a beat's page unless the beat is at
column 0; so two neighbours in the stream have to agree on it. -/

/-- Beat `b`, after beat `a`, is on the page that `a` left selected unless it selects its own. -/
def KeepsPage (a b : Beat) : Prop := b.hc ≠ 0#6 → b.p = a.p

/-- After the half-select, or without one where the half is selected already, the device has half `h'`. -/
theorem replay_selectHalf {selected : Option (BitVec 1)} {h h' : BitVec 1} (hhalf : selected = some h' → h = h')
    (p : BitVec 3) (hc : BitVec 6) (rest : List Strobe) :
    replay h p hc ((if selected = some h' then [] else [.selectHalf h']) ++ rest) = replay h' p hc rest := by
  split
  case isTrue hsel => rw [hhalf hsel, List.nil_append]
  case isFalse => rfl

/-- After the page-select at column 0, or without one where the page is kept, the device has page `p'`. -/
theorem replay_selectPage {p p' : BitVec 3} {hc' : BitVec 6} (hpage : hc' ≠ 0#6 → p' = p) (h : BitVec 1)
    (hc : BitVec 6) (rest : List Strobe) :
    replay h p hc ((if hc' = 0#6 then [.selectPage p'] else []) ++ rest) = replay h p' hc rest := by
  split
  case isTrue => rfl
  case isFalse hcol => rw [hpage hcol, List.nil_append]

/-- One beat's strobes, for a device that has its half and page selected where the strobes do not select them. -/
theorem replay_beatStrobes {selected : Option (BitVec 1)} {h : BitVec 1} {p : BitVec 3} {b : Beat}
    (hhalf : selected = some b.h → h = b.h) (hpage : b.hc ≠ 0#6 → b.p = p) (hc : BitVec 6) (rest : List Strobe) :
    replay h p hc (beatStrobes selected b ++ rest) = b :: replay b.h b.p b.hc rest := by
  rw [beatStrobes, List.append_assoc, List.append_assoc, replay_selectHalf hhalf, replay_selectPage hpage]
  rfl

/-- The strobes of a stream whose first beat keeps the device's page, and every other the page of the one before. -/
theorem replay_strobes {beats : List Beat} (hchain : beats.IsChain KeepsPage) :
    ∀ {selected : Option (BitVec 1)} {h : BitVec 1} {p : BitVec 3} (hc : BitVec 6),
      (∀ h', selected = some h' → h = h') → (∀ b ∈ beats.head?, b.hc ≠ 0#6 → b.p = p) →
      replay h p hc (strobes selected beats) = beats := by
  induction beats with
  | nil => intros; rfl
  | cons b beats ih =>
    intro selected h p hc hhalf hfirst
    obtain ⟨hnext, htail⟩ := List.isChain_cons.1 hchain
    rw [strobes, replay_beatStrobes (hhalf b.h) (hfirst b rfl)]
    exact congrArg _ (ih htail b.hc (fun _ => Option.some.inj) hnext)

/-- Before the first strobe no half is selected, and a first beat at column 0 selects its page. -/
theorem replay_strobes_none {beats : List Beat} (hchain : beats.IsChain KeepsPage)
    (hfirst : ∀ b ∈ beats.head?, b.hc = 0#6) (h : BitVec 1) (p : BitVec 3) (hc : BitVec 6) :
    replay h p hc (strobes none beats) = beats :=
  replay_strobes hchain hc (fun _ hnone => nomatch hnone) fun b hb hcol => absurd (hfirst b hb) hcol

theorem isChain_keepsPage_of_getElem? {beats : List Beat}
    (h : ∀ (n : Nat) (a b : Beat), beats[n]? = some a → beats[n + 1]? = some b → KeepsPage a b) :
    beats.IsChain KeepsPage :=
  List.isChain_iff_getElem.2 fun n hn =>
    h n _ _ (List.getElem?_eq_getElem (Nat.lt_of_succ_lt hn)) (List.getElem?_eq_getElem hn)

/-! A frame write is such a stream. -/

theorem frameBeats_first (fb : List Host.Cell) : ∀ b ∈ (frameBeats fb).head?, b.hc = 0#6 := by
  intro b hb
  rw [List.head?_eq_getElem?, frameBeats_getElem? fb (by decide)] at hb
  cases hb
  rfl

/-- Beat `n + 1` is on the page of beat `n` unless 64 divides `n + 1`. -/
theorem frameBeats_keepsPage (fb : List Host.Cell) : (frameBeats fb).IsChain KeepsPage := by
  refine isChain_keepsPage_of_getElem? fun n a b ha hb hcol => ?_
  have hn : n + 1 < 1024 := frameBeats_length fb ▸ (List.getElem?_eq_some_iff.1 hb).1
  rw [frameBeats_getElem? fb (Nat.lt_of_succ_lt hn)] at ha
  rw [frameBeats_getElem? fb hn] at hb
  cases ha
  cases hb
  have hmod : (n + 1) % 64 ≠ 0 := fun h0 => hcol (congrArg (BitVec.ofNat 6) h0)
  have hdiv : (n + 1) / 64 = n / 64 := by omega
  exact congrArg (fun k => BitVec.ofNat 3 (k % 8)) hdiv

/-! How many strobes of each capability a stream has. -/

def Strobe.isHalfSelect : Strobe → Bool
  | .selectHalf _ => true
  | _ => false

def Strobe.isPageSelect : Strobe → Bool
  | .selectPage _ => true
  | _ => false

def Strobe.isByteWrite : Strobe → Bool
  | .writeByte _ => true
  | _ => false

theorem countP_isHalfSelect_beatStrobes (selected : Option (BitVec 1)) (b : Beat) :
    (beatStrobes selected b).countP Strobe.isHalfSelect = if selected = some b.h then 0 else 1 := by
  unfold beatStrobes
  split <;> split <;> rfl

theorem countP_isPageSelect_beatStrobes (selected : Option (BitVec 1)) (b : Beat) :
    (beatStrobes selected b).countP Strobe.isPageSelect = if b.hc = 0#6 then 1 else 0 := by
  unfold beatStrobes
  split <;> split <;> rfl

theorem countP_isByteWrite_beatStrobes (selected : Option (BitVec 1)) (b : Beat) :
    (beatStrobes selected b).countP Strobe.isByteWrite = 1 := by
  unfold beatStrobes
  split <;> split <;> rfl

/-- A page-select for every beat at column 0. -/
theorem countP_isPageSelect_strobes (beats : List Beat) : ∀ selected : Option (BitVec 1),
    (strobes selected beats).countP Strobe.isPageSelect = beats.countP fun b => b.hc = 0#6 := by
  induction beats with
  | nil => intro _; rfl
  | cons b beats ih =>
    intro selected
    rw [strobes, List.countP_append, countP_isPageSelect_beatStrobes, ih, List.countP_cons, Nat.add_comm]
    simp only [decide_eq_true_eq]

/-- A byte-write for every beat. -/
theorem countP_isByteWrite_strobes (beats : List Beat) : ∀ selected : Option (BitVec 1),
    (strobes selected beats).countP Strobe.isByteWrite = beats.length := by
  induction beats with
  | nil => intro _; rfl
  | cons b beats ih =>
    intro selected
    rw [strobes, List.countP_append, countP_isByteWrite_beatStrobes, ih, List.length_cons, Nat.add_comm]

/-- No half-select for beats of the half that is selected. -/
theorem countP_isHalfSelect_strobes_same {h : BitVec 1} {block : List Beat} (hblock : ∀ b ∈ block, b.h = h)
    (rest : List Beat) : (strobes (some h) (block ++ rest)).countP Strobe.isHalfSelect =
      (strobes (some h) rest).countP Strobe.isHalfSelect := by
  induction block with
  | nil => rfl
  | cons b block ih =>
    obtain ⟨hb, hblock⟩ := List.forall_mem_cons.1 hblock
    rw [List.cons_append, strobes, List.countP_append, countP_isHalfSelect_beatStrobes, hb, if_pos rfl, Nat.zero_add,
      ih hblock]

/-- One half-select for a block of beats of a half that is not selected. -/
theorem countP_isHalfSelect_strobes_change {selected : Option (BitVec 1)} {h : BitVec 1} (hsel : selected ≠ some h)
    {block : List Beat} (hne : block ≠ []) (hblock : ∀ b ∈ block, b.h = h) (rest : List Beat) :
    (strobes selected (block ++ rest)).countP Strobe.isHalfSelect =
      1 + (strobes (some h) rest).countP Strobe.isHalfSelect := by
  obtain ⟨b, block, rfl⟩ := List.exists_cons_of_ne_nil hne
  obtain ⟨hb, hblock⟩ := List.forall_mem_cons.1 hblock
  rw [List.cons_append, strobes, List.countP_append, countP_isHalfSelect_beatStrobes, hb, if_neg hsel,
    countP_isHalfSelect_strobes_same hblock]

/-! The strobes of a frame write: one block of beats a half, and in it eight beats at column 0. -/

/-- The 512 beats of half `h`. -/
def halfBeats (fb : List Host.Cell) (h : Nat) : List Beat :=
  (List.range 8).flatMap fun p => (List.range 64).map fun hc => frameBeat fb h p hc

theorem frameBeats_eq_halfBeats (fb : List Host.Cell) : frameBeats fb = halfBeats fb 0 ++ halfBeats fb 1 := by
  change halfBeats fb 0 ++ (halfBeats fb 1 ++ []) = _
  rw [List.append_nil]

theorem halfBeats_ne_nil (fb : List Host.Cell) (h : Nat) : halfBeats fb h ≠ [] := List.cons_ne_nil _ _

theorem half_of_mem_halfBeats {fb : List Host.Cell} {h : Nat} : ∀ b ∈ halfBeats fb h, b.h = BitVec.ofNat 1 h := by
  intro b hb
  simp only [halfBeats, List.mem_flatMap, List.mem_map] at hb
  obtain ⟨p, -, hc, -, rfl⟩ := hb
  rfl

theorem countP_column_zero_halfBeats (fb : List Host.Cell) (h : Nat) :
    ((halfBeats fb h).countP fun b => b.hc = 0#6) = 8 := by
  have hpage : (List.range 64).countP (fun hc => BitVec.ofNat 6 hc = 0#6) = 1 := by decide
  simp [halfBeats, List.countP_flatMap, List.countP_map, Function.comp_def, frameBeat, hpage]

theorem halfSelects_frameBeats (fb : List Host.Cell) :
    (strobes none (frameBeats fb)).countP Strobe.isHalfSelect = 2 := by
  rw [frameBeats_eq_halfBeats,
    countP_isHalfSelect_strobes_change (by decide) (halfBeats_ne_nil fb 0) half_of_mem_halfBeats,
    ← List.append_nil (halfBeats fb 1),
    countP_isHalfSelect_strobes_change (by decide) (halfBeats_ne_nil fb 1) half_of_mem_halfBeats]
  rfl

theorem pageSelects_frameBeats (fb : List Host.Cell) :
    (strobes none (frameBeats fb)).countP Strobe.isPageSelect = 16 := by
  rw [countP_isPageSelect_strobes, frameBeats_eq_halfBeats, List.countP_append, countP_column_zero_halfBeats,
    countP_column_zero_halfBeats]

theorem byteWrites_frameBeats (fb : List Host.Cell) :
    (strobes none (frameBeats fb)).countP Strobe.isByteWrite = 1024 := by
  rw [countP_isByteWrite_strobes, frameBeats_length]

/-- Settles O27: a frame write is a stream of the kind the first part is about. -/
theorem strobeViewLosesNothing : Obligations.StrobeViewLosesNothing := by
  constructor
  case left =>
    intro beats h hc hfirst hpages p
    exact replay_strobes_none (isChain_keepsPage_of_getElem? hpages) hfirst h p hc
  case right =>
    intro fb
    exact ⟨replay_strobes_none (frameBeats_keepsPage fb) (frameBeats_first fb) 0#1 0#3 0#6,
      halfSelects_frameBeats fb, pageSelects_frameBeats fb, byteWrites_frameBeats fb⟩

end Sys2Proof.Machine
end

section
/-! PROOFS. The statements about exceptions (60_exceptions.md R136 to R140): the fault table, the halted block and the
way out of the halt. -/

namespace Sys2Proof.Machine

open Sys2Proof

/-! The fault table (R136, R138): the test of its row and the test of the command's meaning are the same. -/

/-- A row of the table with one test: where it gives a cause the test was met. -/
theorem exec_eq_raiseFault_of_test {i : Instr} {s : State} {p : Prop} [Decidable p] {cause : BitVec 2}
    (hrow : faultOf i = if p then cause else causeNone) (hfault : faultOf i ≠ causeNone)
    (hexec : p → exec i s = .next (raiseFault cause (opcodeOf i) s)) :
    exec i s = .next (raiseFault (faultOf i) (opcodeOf i) s) := by
  by_cases hp : p
  · rw [hrow, if_pos hp]; exact hexec hp
  · exact absurd (hrow.trans (if_neg hp)) hfault

/-- Where the fault table gives a cause, the command is fault entry with that cause and its own opcode byte (R137). -/
theorem exec_of_faultOf_ne_none {i : Instr} (hi : i.WellFormed = true) (h : faultOf i ≠ causeNone) (s : State) :
    exec i s = .next (raiseFault (faultOf i) (opcodeOf i) s) := by
  cases i with
  | clear | tgload cells | drawgrid | flush => exact absurd rfl h
  | setpx x y => exact exec_eq_raiseFault_of_test rfl h fun hy => exec_setpx_of_le x hy s
  | clrpx x y => exact exec_eq_raiseFault_of_test rfl h fun hy => exec_clrpx_of_le x hy s
  | getpx x y => exact exec_eq_raiseFault_of_test rfl h fun hy => exec_getpx_of_le x hy s
  | drawchar x y code => exact exec_eq_raiseFault_of_test rfl h fun hy => exec_drawchar_of_lt x code hy s
  | drawtext x y text =>
    exact exec_eq_raiseFault_of_test rfl h fun ⟨htext, hy⟩ =>
      exec_drawtext_of_lt x (of_decide_eq_true hi) (List.length_pos_iff.1 htext) hy s
  | tgset col row code => exact exec_eq_raiseFault_of_test rfl h fun hcell => exec_tgset_of_lt code hcell s
  | drawgauge x y width height percent =>
    by_cases hbad : height.toNat = 0 ∨ 100 < percent.toNat
    case pos =>
      rw [show faultOf (.drawgauge x y width height percent) = causeBadarg from if_pos hbad]
      exact exec_drawgauge_of_badarg x y width hbad s
    case neg =>
      exact exec_eq_raiseFault_of_test (if_neg hbad) h fun hy =>
        exec_drawgauge_of_lt x width (by omega) (by omega) hy s

/-- Settles O28: with a cause the command is fault entry; without one it completes and, as every command that does not
fault, writes neither fault register. -/
theorem faultsAreAFunctionOfTheBytes : Obligations.FaultsAreAFunctionOfTheBytes := by
  refine ⟨fun i s hi hrun => ⟨fun hfault => ?fault, fun hnone => ?none⟩, ?illegal⟩
  case fault => rw [exec_of_faultOf_ne_none hi hfault, raiseFault_of_running hrun]
  case none =>
    obtain ⟨t, ht⟩ := exec_next_of_wellFormed hi s
    obtain ⟨_, _, _, _, hregisters, _, _⟩ := whoWritesWhat i s t ht
    exact ⟨t, ht, hregisters (.inl hnone)⟩
  case illegal => exact fun _ _ _ hrun hlatch hcmd hop => step_of_illegal hrun hlatch hcmd hop

/-! The halted block (R139). -/

/-- Settles O30. -/
theorem haltedBlockDiscardsBytes : Obligations.HaltedBlockDiscardsBytes :=
  fun bytes _ _ hhalted hcmd => run_halted_bytes bytes hhalted hcmd

theorem step_byte_of_halted {s : State} {b : Byte} {rest : List HostEvent} (hhalted : ¬ s.Running)
    (hcmd : s.cmd = .byte b :: rest) : step s = .next { s with cmd := rest } :=
  (step_byte hcmd).trans (takeByte_of_halted hhalted)

/-- A halted block to which only bytes are presented discards one a step, as long as there are any, and then waits. -/
theorem run_halted_only_bytes (k : Nat) : ∀ {s : State}, ¬ s.Running → (∀ e ∈ s.cmd, ∃ b, e = .byte b) →
    Sys2Proof.core.run k s = .next { s with cmd := s.cmd.drop k } := by
  induction k with
  | zero => exact fun {s} _ _ => run_zero s
  | succ k ih =>
    intro s hhalted hbytes
    cases hcmd : s.cmd with
    | nil =>
      rw [run_succ_of_next (step_idle hcmd), ih hhalted hbytes, hcmd, List.drop_nil, List.drop_nil]
    | cons e rest =>
      rw [hcmd] at hbytes
      obtain ⟨⟨b, rfl⟩, hrest⟩ := List.forall_mem_cons.1 hbytes
      rw [run_succ_of_next (step_byte_of_halted hhalted hcmd)]
      exact ih (s := { s with cmd := rest }) hhalted hrest

/-! The way out of the halt (R140; 70_reset_and_hazards.md R155). -/

/-- A reset event that cuts short what a byte has started. -/
theorem step_byteThenReset {s u : State} {b : Byte} {rest : List HostEvent} (hcmd : s.cmd = .byteThenReset b :: rest)
    (htake : takeByte b { s with cmd := rest } = .next u) : step s = .next (cutShort { s with cmd := rest } u) := by
  simp [step, hcmd, htake]

/-- Settles O31: a reset event puts `FCAUSE` and the Framebuffer back; every other step leaves `FCAUSE` as it was. -/
theorem onlyResetLeavesTheHalt : Obligations.OnlyResetLeavesTheHalt := by
  intro s hhalted
  refine ⟨step_idle, fun _ _ hcmd => step_byte_of_halted hhalted hcmd, ?reset, ?byteThenReset, ?bytes⟩
  case reset => exact fun rest hcmd => ⟨_, step_reset hcmd, rfl, fbByte_nil⟩
  case byteThenReset =>
    exact fun b rest hcmd =>
      ⟨_, step_byteThenReset hcmd (takeByte_of_halted (s := { s with cmd := rest }) hhalted), rfl, fbByte_nil⟩
  case bytes =>
    rintro k hbytes ⟨t, ht, hrun⟩
    cases (run_halted_only_bytes k hhalted hbytes).symm.trans ht
    exact hhalted hrun

end Sys2Proof.Machine
end

section
/-! PROOFS. The statement about the reset event (70_reset_and_hazards.md R155): between bytes, during the execution that
a byte starts, and during a FLUSH. -/

namespace Sys2Proof.Machine

open Sys2Proof

/-! Every piece of state goes back, whatever the reset event meets. -/

theorem resetEvent_blockReset (s : State) : (resetEvent s).BlockReset := ⟨fbByte_nil, tgCell_nil, rfl, rfl, rfl⟩

theorem cutShort_blockReset (s t : State) : (cutShort s t).BlockReset := ⟨fbByte_nil, tgCell_nil, rfl, rfl, rfl⟩

/-! What an execution that is cut short has handed over. -/

/-- Nothing crosses a port that the execution would not have handed over. -/
theorem cutShort_histories_prefix (s t : State) : (cutShort s t).rsp <+: t.rsp ∧ (cutShort s t).out <+: t.out :=
  ⟨List.take_prefix _ _, List.take_prefix _ _⟩

/-- Of the beats that the execution adds to `OUT`, the free value says how many have crossed it. -/
theorem cutShort_out_of_append {s t : State} {beats : List Beat} (h : t.out = s.out ++ beats) :
    (cutShort s t).out = s.out ++ beats.take (Config.freeCut s.draw) := by
  rw [show (cutShort s t).out = t.out.take (s.out.length + Config.freeCut s.draw) from rfl, h,
    List.take_length_add_append]

/-! The byte that completes a command starts its execution (30_encoding.md R61). -/

theorem takeByte_of_command {s : State} {b : Byte} {i : Instr} (hrun : s.Running)
    (hdecode : decode (s.latch ++ [b]) = .command i []) : takeByte b s = exec i { s with latch := [] } := by
  simp [takeByte_of_running hrun, acceptByte, hdecode]

/-- FLUSH is the one byte `opFlush` (44_frame_write.md R126). -/
theorem takeByte_opFlush {s : State} (hrun : s.Running) (hlatch : s.latch = []) :
    takeByte opFlush s = .next (emitOut (frameBeats s.fb) { s with latch := [] }) :=
  takeByte_of_command hrun (by rw [hlatch, List.nil_append, decode_opFlush])

/-- Settles O33: in a state that meets the invariant a byte always leads to a next state, from which the cut takes a
beginning of each history; a FLUSH adds the 1024 beats of the frame to `OUT`, so that the cut leaves some of these. -/
theorem resetEventPutsEverythingBack : Obligations.ResetEventPutsEverythingBack := by
  refine ⟨fun s rest hcmd => ?between, fun s b rest hinv hcmd => ?during, fun s rest hrun hlatch hcmd => ?flush⟩
  case between => exact ⟨_, step_reset hcmd, resetEvent_blockReset _, rfl, rfl⟩
  case during =>
    obtain ⟨u, htake⟩ := takeByte_progress (s := { s with cmd := rest }) hinv.latchIncomplete b
    obtain ⟨hrspKept, houtKept⟩ := cutShort_histories_grow (takeByte_histories_grow htake)
    obtain ⟨hrspCut, houtCut⟩ := cutShort_histories_prefix { s with cmd := rest } u
    exact ⟨u, _, htake, step_byteThenReset hcmd htake, cutShort_blockReset _ _, hrspKept, hrspCut, houtKept, houtCut⟩
  case flush =>
    have hstep := step_byteThenReset hcmd (takeByte_opFlush (s := { s with cmd := rest }) hrun hlatch)
    refine ⟨_, min (Config.freeCut s.draw) 1024, Nat.min_le_right _ _, hstep, cutShort_blockReset _ _, ?beats⟩
    case beats =>
      rw [← frameBeats_length s.fb, ← List.take_eq_take_min]
      exact cutShort_out_of_append rfl

end Sys2Proof.Machine
end

section
/-! PROOFS. The statement about the encoding examples (30_encoding.md section 8). -/

namespace Sys2Proof

/-- Settles O4: each word is what the encoder writes for its command, and the decoder reads that back. -/
theorem writtenOutWordsDecode : Obligations.WrittenOutWordsDecode := by
  refine ⟨?setpx, ?drawchar, ?drawtext, ?tgset, ?drawgauge, ?flush⟩
  case setpx => exact decode_encode (i := .setpx 5#8 10#8) rfl
  case drawchar => exact decode_encode (i := .drawchar 8#8 16#8 0x41#8) rfl
  case drawtext => exact decode_encode (i := .drawtext 120#8 0#8 [0x41#8, 0x42#8]) rfl
  case tgset => exact decode_encode (i := .tgset 15#8 3#8 0x30#8) rfl
  case drawgauge => exact decode_encode (i := .drawgauge 10#8 48#8 100#8 8#8 50#8) rfl
  case flush => exact decode_encode (i := .flush) rfl

end Sys2Proof
end
